-- ==== Sys2Proof/Word.lean ====
section
/-! DEFINITION. The word types of the block: 32-bit words (`W = 32`, 00_scope.md R6) and bytes. -/

namespace Sys2Proof

/-- One register, command or bus word: `W = 32` bits (00_scope.md R6, 10_state.md R20). -/
abbrev Word := BitVec 32

/-- One byte: a character code (00_scope.md R15) or one byte of the platform's view of a word (20_memory.md R69). -/
abbrev Byte := BitVec 8

end Sys2Proof
end

