-- ==== Sys2Proof/Config.lean ====
section
/-! DEFINITION. The parameters of 00_scope.md R6 and the value each takes. `LAT` is no constant here: how long a command
runs is left to the schedule that `State.events` holds (log entry 2). -/

namespace Sys2Proof

/-- `W`: the width in bits of every operand and result register (R6); `Word` is `BitVec 32` (log
entry 1). -/
def Config.wordBits : Nat := 32

/-- `MODULUS_AFFINE`: "an implicit modulus 26" (R6, R22). -/
def Config.affineModulus : Nat := 26

/-- `AW`: the width of the bus word index (R6). -/
def Config.indexBits : Nat := 6

/-- The number of words of the register window (20_memory.md R61). -/
def Config.windowWords : Nat := 2 ^ Config.indexBits

/-- The number of bytes of the register window: offsets run from 0x00 to 0xFF (20_memory.md R61). -/
def Config.windowBytes : Nat := 4 * Config.windowWords

/-- `CHARW`: the width of a character code (R6). -/
def Config.charBits : Nat := 8

end Sys2Proof
end

