-- ==== Sys2Proof/Syntax.lean ====
section
/-! DEFINITION. The commands of the block (one constructor per row of spec/opcode_table.json), the register names of
10_state.md R21, the error names of 30_encoding.md R100, and the events of 00_scope.md R18. -/

namespace Sys2Proof

/-- The seven commands (30_encoding.md R92). Every operand is implicit, so no constructor has an argument (R90, R91). -/
inductive Instr where
  | modinv
  | padd
  | pdbl
  | smul
  | oncurve
  | affenc
  | affdec
  deriving DecidableEq, Repr

/-- The nineteen registers of the window (10_state.md R20, R21). -/
inductive Reg where
  | ctrl | cmd | status
  | mod | ca | cb | k
  | x1 | y1 | x2 | y2 | pinf
  | val | afa | afb | chr
  | res0 | res1 | rinf
  deriving DecidableEq, Repr

/-- The errors a command can end with (00_scope.md R13, 30_encoding.md R100). -/
inductive Err where
  | noInverse
  | invalidPoint
  | badModulus
  | illegalCmd
  deriving DecidableEq, Repr

/-- What can happen to the block next (00_scope.md R16, R18): a host transaction `MemRead(off, size)` or
`MemWrite(off, size, data)` (20_memory.md R63), the engine's completion (30_encoding.md R96), one round of the engine on its
hidden working values (10_state.md R31; log entry 6), or a reset (70_reset_and_hazards.md R250). -/
inductive Event where
  | read (off size : Nat)
  | write (off size : Nat) (data : Word)
  | completion
  | work
  | reset
  deriving DecidableEq, Repr

/-- The host notation of 30_encoding.md R106 and R107. -/
inductive HostLine where
  | wr (r : Reg) (v : Word)
  | rd (r : Reg)
  | cmd (i : Instr)
  | wait
  | curve (a b p : Word)
  | setP1 (x y : Word)
  | setP2 (x y : Word)
  | setP1Inf
  | setP2Inf
  | run (i : Instr)
  | movr1
  | movr2
  | ack
  | clrwerr
  deriving DecidableEq, Repr

end Sys2Proof
end

