-- ==== Sys2Proof/WellFormed.lean ====
section
/-! DEFINITION. Which commands and which host requests are well formed. -/

namespace Sys2Proof

/-- A command has no field to check: "No bit of the word is a register number, an immediate, a mode or a modifier"
(30_encoding.md R90). -/
def Instr.wf : Instr → Bool
  | .modinv | .padd | .pdbl | .smul | .oncurve | .affenc | .affdec => true

/-- The offset lies in the register window, 0x00 to 0xFF (20_memory.md R61). -/
def inWindow (off : Nat) : Bool := decide (off < Config.windowBytes)

/-- The request is one whole aligned word (20_memory.md R64). -/
def wholeWord (off size : Nat) : Bool := decide (size = 4) && decide (off % 4 = 0)

/-- "A model offers `MemRead` and `MemWrite` only for `off` in `{0x00, 0x04, …, 0xFC}` and size 4" (20_memory.md R64). -/
def Event.wf : Event → Bool
  | .read off size => inWindow off && wholeWord off size
  | .write off size _ => inWindow off && wholeWord off size
  | .completion | .work | .reset => true

end Sys2Proof
end

