-- ==== Sys2Proof/Decode.lean ====
section
/-! DEFINITION. Decoding and encoding of command words (30_encoding.md R90 to R93). -/

namespace Sys2Proof

/-- One row of the opcode map: the command word `w` selects the row when `w and mask = pattern` (30_encoding.md R92). -/
structure OpcodeRow where
  pattern : Word
  mask : Word
  instr : Instr
  deriving DecidableEq, Repr

/-- The opcode map (30_encoding.md R92). -/
def opcodeRows : List OpcodeRow :=
  [ ⟨0x00000001#32, 0xFFFFFFFF#32, .modinv⟩,
    ⟨0x00000002#32, 0xFFFFFFFF#32, .padd⟩,
    ⟨0x00000003#32, 0xFFFFFFFF#32, .pdbl⟩,
    ⟨0x00000004#32, 0xFFFFFFFF#32, .smul⟩,
    ⟨0x00000005#32, 0xFFFFFFFF#32, .oncurve⟩,
    ⟨0x00000006#32, 0xFFFFFFFF#32, .affenc⟩,
    ⟨0x00000007#32, 0xFFFFFFFF#32, .affdec⟩ ]

/-- A command word selects a row (30_encoding.md R92). -/
def OpcodeRow.selects (r : OpcodeRow) (w : Word) : Bool := w &&& r.mask == r.pattern

/-- Why bytes are no command: the word is illegal (30_encoding.md R93), or fewer than four bytes are there, which a write to
CMD cannot be (20_memory.md R64). -/
inductive Reject where
  | illegalCmd (w : Word)
  | fewerThanFourBytes (n : Nat)
  deriving DecidableEq, Repr

/-- The decoder, total on words: "every 32-bit value is one of the seven commands or illegal" (30_encoding.md R93). -/
def decode (w : Word) : Except Reject Instr :=
  match opcodeRows.find? (fun r => r.selects w) with
  | some r => .ok r.instr
  | none => .error (.illegalCmd w)

/-- A word from its four bytes, the byte at the lowest offset least significant (20_memory.md R69). -/
def wordOfBytes (b0 b1 b2 b3 : Byte) : Word := b3 ++ b2 ++ b1 ++ b0

/-- Byte `n` of a word, the one at byte offset `off + n` (20_memory.md R69). -/
def byteOfWord (w : Word) (n : Nat) : Byte := (w >>> (8 * n)).setWidth 8

/-- The decoder on bytes as a byte-addressed platform sees a command word (20_memory.md R69; log entry 12), with the bytes
after it. -/
def decodeBytes : List Byte → Except Reject (Instr × List Byte)
  | b0 :: b1 :: b2 :: b3 :: rest =>
    match decode (wordOfBytes b0 b1 b2 b3) with
    | .ok i => .ok (i, rest)
    | .error e => .error e
  | bs => .error (.fewerThanFourBytes bs.length)

/-- The command word of a command (30_encoding.md R92). -/
def encode : Instr → Word
  | .modinv => 0x00000001#32
  | .padd => 0x00000002#32
  | .pdbl => 0x00000003#32
  | .smul => 0x00000004#32
  | .oncurve => 0x00000005#32
  | .affenc => 0x00000006#32
  | .affdec => 0x00000007#32

/-- The four bytes of a word, lowest offset first (20_memory.md R69). -/
def bytesOfWord (w : Word) : List Byte := [byteOfWord w 0, byteOfWord w 1, byteOfWord w 2, byteOfWord w 3]

/-- The bytes of a command (30_encoding.md R92, 20_memory.md R69). -/
def encodeBytes (i : Instr) : List Byte := bytesOfWord (encode i)

/-- A row's bits as a command word: bit 0 least significant, every bit from `nbits` up zero. -/
def tableWord (nbits w : Nat) : Word := BitVec.ofNat 32 (w % 2 ^ nbits)

/-- The command the decoder reads from the bits of an opcode-table row, laid out in bytes. -/
def decodeTableWord (nbits w : Nat) : Option Instr :=
  match decodeBytes (bytesOfWord (tableWord nbits w)) with
  | .ok (i, _) => some i
  | .error _ => none

end Sys2Proof
end

