-- ==== Sys2Proof/Machine/State.lean ====
section
/-! DEFINITION. The state of the block (10_state.md R20 to R38), its reset values, and the names of what stops the model. -/

namespace Sys2Proof.Machine

/-- A point (00_scope.md R12): `Inf`, or `Aff(x, y)` with `x`, `y` non-negative integers. -/
inductive Point where
  | inf
  | aff (x y : Nat)
  deriving DecidableEq, Repr

/-- The thirteen operand registers (10_state.md R22), each with its implemented bits only (R21): an unimplemented bit has no
home, so it reads 0 and a write to it is ignored. -/
structure Operands where
  mod : Word
  ca : Word
  cb : Word
  k : Word
  x1 : Word
  y1 : Word
  x2 : Word
  y2 : Word
  pinf : BitVec 2
  val : Word
  afa : Word
  afb : Word
  chr : BitVec 8
  deriving DecidableEq, Repr

/-- The three result registers (10_state.md R26). -/
structure Results where
  res0 : Word
  res1 : Word
  rinf : BitVec 1
  deriving DecidableEq, Repr

/-- The fields of STATUS (10_state.md R29): BUSY bit 0, DONE bit 1, ERR bits 7:4, WERR bit 8. -/
structure Status where
  busy : Bool
  done : Bool
  err : BitVec 4
  werr : Bool
  deriving DecidableEq, Repr

/-- Working values of the inverse engine: the remainders and coefficients of the Euclidean iteration (10_state.md R31,
40_modinv.md R126). -/
structure Euclid where
  r0 : Int
  r1 : Int
  t0 : Int
  t1 : Int
  deriving DecidableEq, Repr

/-- Working values of the scalar multiplier: the remaining scalar, the running result and the addend (10_state.md R31,
43_ecc_smul.md R190). -/
structure Scalar where
  k : Nat
  result : Point
  addend : Point
  deriving DecidableEq, Repr

/-- The engine's hidden working values (10_state.md R31 (2)). -/
structure Work where
  euclid : Euclid
  scalar : Scalar
  slope : Nat
  deriving DecidableEq, Repr

/-- "every working value is 0" (10_state.md R35); the point with all bits 0 is the affine `(0, 0)`. -/
def Work.zero : Work where
  euclid := { r0 := 0, r1 := 0, t0 := 0, t1 := 0 }
  scalar := { k := 0, result := .aff 0 0, addend := .aff 0 0 }
  slope := 0

/-- The state. CMD stores nothing (10_state.md R28) and `irq` is no state (R36), so neither has a field. -/
structure State where
  /-- The operand registers (R22). -/
  operands : Operands
  /-- The result registers (R26). -/
  results : Results
  /-- CTRL (R27): bit 0 IE, bit 1 PCHK. -/
  ctrl : BitVec 2
  /-- STATUS (R29). -/
  status : Status
  /-- OPLATCH (R31): the command word of the command in flight. -/
  oplatch : Word
  /-- The engine's working values (R31). -/
  work : Work
  /-- MODEL'S OWN FIELD (log entry 4): the value the last host read returned, on the pin `rdata` (20_memory.md R62). -/
  rdata : Word
  /-- MODEL'S OWN FIELD (log entry 2): the events still to come, in their one total order (20_memory.md R72). -/
  events : List Event
  deriving DecidableEq, Repr

/-- Why the model stops with a fault. No command raises one: "Nothing in the block is `stuck`" (93_implementation_defined.md). -/
inductive Fault where
  /-- Raised by a host request at an offset outside the register window, an address that does not exist (20_memory.md R61,
  R64; log entry 9). SAFE: the model stops where the port has no such access. -/
  | outsideWindow (off : Nat)
  deriving DecidableEq, Repr

/-- Why the model refuses. -/
inductive Refusal where
  /-- Raised by a dispatch arm without a meaning; no arm raises it. SAFE. -/
  | notModelled (mnemonic : String)
  /-- Raised by a host request that is not one whole aligned word: "refuses any other request" (20_memory.md R64; log entry 9).
  SAFE: the model stops where the port cannot express the access. -/
  | notAWordAccess (off size : Nat)
  deriving DecidableEq, Repr

/-- The state after reset: every bit of every register, OPLATCH and every working value is 0 (10_state.md R35). The two
fields of the model's own start at 0 and empty (log entries 2 and 4). -/
def State.reset : State where
  operands :=
    { mod := 0, ca := 0, cb := 0, k := 0, x1 := 0, y1 := 0, x2 := 0, y2 := 0, pinf := 0, val := 0, afa := 0, afb := 0, chr := 0 }
  results := { res0 := 0, res1 := 0, rinf := 0 }
  ctrl := 0
  status := { busy := false, done := false, err := 0, werr := false }
  oplatch := 0
  work := Work.zero
  rdata := 0
  events := []

end Sys2Proof.Machine
end

