-- ==== Sys2Proof/Machine/Flags.lean ====
section
/-! DEFINITION. The control bits, the fields of STATUS, the error codes and the interrupt level (10_state.md R27 to R30, R36;
30_encoding.md R99, R100; 60_exceptions.md R232). -/

namespace Sys2Proof.Machine

/-- CTRL.IE, bit 0 (10_state.md R27). -/
def interruptEnable (s : State) : Bool := s.ctrl.getLsbD 0

/-- CTRL.PCHK, bit 1 (10_state.md R27). -/
def pointCheck (s : State) : Bool := s.ctrl.getLsbD 1

/-- The error codes (30_encoding.md R100). -/
def errCode : Err → BitVec 4
  | .noInverse => 1
  | .invalidPoint => 2
  | .badModulus => 3
  | .illegalCmd => 4

/-- STATUS as a whole word (10_state.md R29): bit 8 WERR, bits 7:4 ERR, bit 1 DONE, bit 0 BUSY, every other bit 0. -/
def statusWord (t : Status) : Word :=
  (0#23) ++ BitVec.ofBool t.werr ++ t.err ++ (0#2) ++ BitVec.ofBool t.done ++ BitVec.ofBool t.busy

/-- ERR in a value read from STATUS, bits 7:4 (10_state.md R29; 44_host_sequences.md R210 (4)). -/
def statusErr (v : Word) : BitVec 4 := v.extractLsb' 4 4

/-- DONE in a value read from STATUS, bit 1 (10_state.md R29; 30_encoding.md R106). -/
def statusDone (v : Word) : Bool := v.getLsbD 1

/-- A host write of STATUS: "`if v[1] = 1 then DONE <- 0; if v[8] = 1 then WERR <- 0`" (10_state.md R29). -/
def statusW1C (v : Word) (t : Status) : Status :=
  { t with done := t.done && !v.getLsbD 1, werr := t.werr && !v.getLsbD 8 }

/-- STATUS at an issue (30_encoding.md R95). -/
def statusIssued (t : Status) : Status := { t with busy := true, done := false, err := 0 }

/-- STATUS at a completion with error code `code`, 0 for OK (30_encoding.md R96). -/
def statusCompleted (code : BitVec 4) (t : Status) : Status := { t with busy := false, done := true, err := code }

/-- STATUS when a host write is dropped (70_reset_and_hazards.md R260). -/
def statusDropped (t : Status) : Status := { t with werr := true }

/-- The interrupt output: `irq = CTRL.IE and STATUS.DONE`, a level (10_state.md R36, 60_exceptions.md R232). -/
def irq (s : State) : Bool := interruptEnable s && s.status.done

end Sys2Proof.Machine
end

