-- ==== Sys2Proof/Machine/Operands.lean ====
section
/-! DEFINITION. How the engine reads its operands: integers (00_scope.md R8, 10_state.md R24), points and characters
(30_encoding.md R103 to R105), and how it writes its results. -/

namespace Sys2Proof.Machine

/-- The unsigned reading of a register (00_scope.md R8). -/
def uint (w : Word) : Nat := w.toNat

/-- The two's-complement reading of a register (00_scope.md R8). -/
def sint (w : Word) : Int := w.toInt

/-- The pattern of a non-negative integer, `zext_32` (30_encoding.md R103). -/
def zext (v : Nat) : Word := BitVec.ofNat 32 v

/-- The modulus `p = uint(x[MOD])` (42_ecc_point.md R160). -/
def modulus (o : Operands) : Nat := uint o.mod

/-- The curve coefficient `a = sint(x[CA])` (42_ecc_point.md R160). -/
def curveA (o : Operands) : Int := sint o.ca

/-- The curve coefficient `b = sint(x[CB])` (42_ecc_point.md R160). -/
def curveB (o : Operands) : Int := sint o.cb

/-- P1INF, bit 0 of PINF (10_state.md R23). -/
def p1Inf (o : Operands) : Bool := o.pinf.getLsbD 0

/-- P2INF, bit 1 of PINF (10_state.md R23). -/
def p2Inf (o : Operands) : Bool := o.pinf.getLsbD 1

/-- A point from its flag and its two coordinate registers (30_encoding.md R104). -/
def decodePoint (isInf : Bool) (x y : Word) : Point := if isInf then .inf else .aff (uint x) (uint y)

/-- P1 (30_encoding.md R104). -/
def point1 (o : Operands) : Point := decodePoint (p1Inf o) o.x1 o.y1

/-- P2 (30_encoding.md R104). -/
def point2 (o : Operands) : Point := decodePoint (p2Inf o) o.x2 o.y2

/-- `EncodePoint` (30_encoding.md R104). -/
def encodePoint : Point → Results
  | .inf => { res0 := 0, res1 := 0, rinf := 1 }
  | .aff x y => { res0 := zext x, res1 := zext y, rinf := 0 }

/-- A result of one integer: RES1 and RINF are 0 (30_encoding.md R97, 10_state.md R26). -/
def encodeInt (v : Nat) : Results := { res0 := zext v, res1 := 0, rinf := 0 }

/-- A truth value is stored as 1 or 0 (30_encoding.md R103). -/
def encodeTruth (b : Bool) : Results := encodeInt (if b then 1 else 0)

/-- The character `c = uint(x[CHR])`, in `[0, 255]` (10_state.md R25). -/
def charCode (o : Operands) : Nat := o.chr.toNat

/-- `IsUpper` (30_encoding.md R105). -/
def isUpper (c : Nat) : Bool := decide (0x41 ≤ c ∧ c ≤ 0x5A)

/-- `IsLower` (30_encoding.md R105). -/
def isLower (c : Nat) : Bool := decide (0x61 ≤ c ∧ c ≤ 0x7A)

/-- `IsLetter` (30_encoding.md R105). -/
def isLetter (c : Nat) : Bool := isUpper c || isLower c

/-- `Index` of a letter, in `[0, 25]` (30_encoding.md R105). -/
def letterIndex (c : Nat) : Nat := if isUpper c then c - 0x41 else c - 0x61

/-- `Letter`: always upper case (30_encoding.md R105). -/
def letterOf (i : Nat) : Nat := 0x41 + i

end Sys2Proof.Machine
end

