-- ==== Sys2Proof/Machine/Arith.lean ====
section
/-! DEFINITION. Exact integer arithmetic: `mod` (00_scope.md R10), the extended Euclidean iteration (40_modinv.md R126) and
`ModInv` (40_modinv.md R121). -/

namespace Sys2Proof.Machine

/-- `mod(v, m)` for `m ≥ 1`: the non-negative residue below `m` (00_scope.md R10, 40_modinv.md R120). -/
def modulo (v : Int) (m : Nat) : Nat := (v % (m : Int)).toNat

/-- The first values of `ExtEuclid(v, m)` (40_modinv.md R126). -/
def euclidStart (v : Int) (m : Nat) : Euclid := { r0 := m, r1 := modulo v m, t0 := 0, t1 := 1 }

/-- One round of the loop, when `r1 ≠ 0` (40_modinv.md R126). -/
def euclidRound (e : Euclid) : Euclid :=
  { r0 := e.r1, r1 := e.r0 - e.r0 / e.r1 * e.r1, t0 := e.t1, t1 := e.t0 - e.r0 / e.r1 * e.t1 }

/-- The loop condition and body (40_modinv.md R126): a round while `r1 ≠ 0`. -/
def euclidNext (e : Euclid) : Euclid := if e.r1 = 0 then e else euclidRound e

/-- The loop, on fuel (log entry 8). -/
def euclidRun : Nat → Euclid → Euclid
  | 0, e => e
  | fuel + 1, e => if e.r1 = 0 then e else euclidRun fuel (euclidRound e)

/-- The end of `ExtEuclid`: NoInverse unless the gcd `r0` is 1, else `mod(t0, m)` (40_modinv.md R126). -/
def euclidResult (m : Nat) (e : Euclid) : Except Err Nat :=
  if e.r0 = 1 then .ok (modulo e.t0 m) else .error .noInverse

/-- `ModInv(v, m)` for `m ≥ 1` (40_modinv.md R121), by the extended Euclidean algorithm (R126). The remainder starts below `m`
and falls every round, so `m` rounds of fuel are enough (log entry 8). -/
def modInv (v : Int) (m : Nat) : Except Err Nat := euclidResult m (euclidRun m (euclidStart v m))

end Sys2Proof.Machine
end

