-- ==== Sys2Proof/Machine/Group.lean ====
section
/-! DEFINITION. The curve check (42_ecc_point.md R161), the group law (R164, R165) and double-and-add (43_ecc_smul.md R190). -/

namespace Sys2Proof.Machine

/-- `OnCurve(P, a, b, p)` for `p ≥ 1` (42_ecc_point.md R161): the congruence only. -/
def onCurve (P : Point) (a b : Int) (p : Nat) : Bool :=
  match P with
  | .inf => true
  | .aff x y => modulo ((y : Int) * y - ((x : Int) * x * x + a * x + b)) p == 0

/-- The slope of the tangent at `(x1, y1)`, case (3) (42_ecc_point.md R164). -/
def tangentSlope (x1 y1 : Nat) (a : Int) (p : Nat) : Except Err Nat :=
  match modInv (2 * (y1 : Int)) p with
  | .ok i => .ok (modulo ((3 * ((x1 : Int) * x1) + a) * i) p)
  | .error e => .error e

/-- The slope of the chord, case (4) (42_ecc_point.md R164). -/
def chordSlope (x1 y1 x2 y2 p : Nat) : Except Err Nat :=
  match modInv ((x2 : Int) - x1) p with
  | .ok i => .ok (modulo (((y2 : Int) - y1) * i) p)
  | .error e => .error e

/-- The third point from the slope, case (5) (42_ecc_point.md R164). -/
def thirdPoint (m x1 y1 x2 p : Nat) : Point :=
  .aff (modulo ((m : Int) * m - x1 - x2) p)
    (modulo ((m : Int) * ((x1 : Int) - modulo ((m : Int) * m - x1 - x2) p) - y1) p)

/-- The slope `Add` uses for two affine points that are not in case (2) (42_ecc_point.md R164 (3), (4)). -/
def slopeOf (x1 y1 x2 y2 : Nat) (a : Int) (p : Nat) : Except Err Nat :=
  if x1 = x2 then tangentSlope x1 y1 a p else chordSlope x1 y1 x2 y2 p

/-- `Add(P, Q, a, p)` for `p ≥ 1`, case by case (42_ecc_point.md R164). The comparisons are on the integers as decoded. -/
def pointAdd (P Q : Point) (a : Int) (p : Nat) : Except Err Point :=
  match P, Q with
  | .inf, Q => .ok Q
  | .aff x1 y1, .inf => .ok (.aff x1 y1)
  | .aff x1 y1, .aff x2 y2 =>
    if x1 = x2 ∧ (y1 ≠ y2 ∨ y1 = 0) then .ok .inf
    else
      match slopeOf x1 y1 x2 y2 a p with
      | .ok m => .ok (thirdPoint m x1 y1 x2 p)
      | .error e => .error e

/-- `Dbl(P, a, p)` for `p ≥ 1`, the doubler's own formulas (42_ecc_point.md R165, expanded form). -/
def pointDbl (P : Point) (a : Int) (p : Nat) : Except Err Point :=
  match P with
  | .inf => .ok .inf
  | .aff x1 y1 =>
    if y1 = 0 then .ok .inf
    else
      match tangentSlope x1 y1 a p with
      | .ok m =>
        .ok (.aff (modulo ((m : Int) * m - 2 * x1) p)
          (modulo ((m : Int) * ((x1 : Int) - modulo ((m : Int) * m - 2 * x1) p) - y1) p))
      | .error e => .error e

/-- The first values of `ScalarMul(k, P, a, p)` (43_ecc_smul.md R190). -/
def scalarStart (k : Nat) (P : Point) : Scalar := { k := k, result := .inf, addend := P }

/-- The accumulation of one iteration: only when the current bit of the scalar is 1 (43_ecc_smul.md R190). -/
def scalarAccumulate (r : Scalar) (a : Int) (p : Nat) : Except Err Point :=
  if r.k % 2 = 1 then pointAdd r.result r.addend a p else .ok r.result

/-- One iteration of the loop, when `k > 0`: accumulate, then double, the last iteration included (43_ecc_smul.md R190, R191). -/
def scalarRound (r : Scalar) (a : Int) (p : Nat) : Except Err Scalar :=
  match scalarAccumulate r a p with
  | .error e => .error e
  | .ok result =>
    match pointAdd r.addend r.addend a p with
    | .error e => .error e
    | .ok addend => .ok { k := r.k / 2, result := result, addend := addend }

/-- The loop, on fuel (43_ecc_smul.md R190; log entry 8). -/
def scalarRun : Nat → Scalar → Int → Nat → Except Err Point
  | 0, r, _, _ => .ok r.result
  | fuel + 1, r, a, p =>
    if r.k = 0 then .ok r.result
    else
      match scalarRound r a p with
      | .ok r' => scalarRun fuel r' a p
      | .error e => .error e

/-- `ScalarMul(k, P, a, p)` for `p ≥ 1` (43_ecc_smul.md R190). The scalar halves every iteration, so `k` is fuel enough. -/
def scalarMul (k : Nat) (P : Point) (a : Int) (p : Nat) : Except Err Point := scalarRun k (scalarStart k P) a p

/-- `negate` of a point (44_host_sequences.md R215): host arithmetic, no command. -/
def negatePoint (p : Nat) : Point → Point
  | .inf => .inf
  | .aff x y => .aff x (modulo (-(y : Int)) p)

end Sys2Proof.Machine
end

