-- ==== Sys2Proof/Machine/Engine.lean ====
section
/-! DEFINITION. The engine's hidden working values (10_state.md R31): what an issue puts there and what one round of the
running command does to them. None of it is observable; results come from the completion alone (log entry 6). -/

namespace Sys2Proof.Machine

/-- The working values after an issue of the word `w`: "re-initialised from the operand registers by every issue"
(10_state.md R31). DESIGN CHOICE, the spec being silent on each (log entry 6): values the command does not use are 0; the slope
is 0 from the issue of PADD or PDBL until it is computed; the Euclidean values are 0 after a MODINV issued with MOD = 0; and every
value is 0 after the issue of an illegal word. -/
def workStart (w : Word) (o : Operands) : Work :=
  match decode w with
  | .ok .modinv => if modulus o = 0 then Work.zero else { Work.zero with euclid := euclidStart (sint o.val) (modulus o) }
  | .ok .affdec => { Work.zero with euclid := euclidStart (sint o.afa) Config.affineModulus }
  | .ok .smul => { Work.zero with scalar := scalarStart (uint o.k) (point1 o) }
  | .ok .padd | .ok .pdbl | .ok .oncurve | .ok .affenc => Work.zero
  | .error _ => Work.zero

/-- One iteration of double-and-add on the working values (43_ecc_smul.md R190). DESIGN CHOICE (log entry 6): they stay as they
are when the scalar is used up, when an addition raises NoInverse, and when MOD = 0. -/
def scalarWork (r : Scalar) (a : Int) (p : Nat) : Scalar :=
  if r.k = 0 ∨ p = 0 then r
  else
    match scalarRound r a p with
    | .ok r' => r'
    | .error _ => r

/-- The slope of PADD or PDBL (42_ecc_point.md R164). DESIGN CHOICE (log entry 6): where no slope is computed (MOD = 0, an
operand `Inf`, opposite points) or its inverse is missing, the value before, which is the 0 of the issue. -/
def slopeWork (old : Nat) (P Q : Point) (a : Int) (p : Nat) : Nat :=
  match P, Q with
  | .aff x1 y1, .aff x2 y2 =>
    if p = 0 ∨ (x1 = x2 ∧ (y1 ≠ y2 ∨ y1 = 0)) then old
    else
      match slopeOf x1 y1 x2 y2 a p with
      | .ok m => m
      | .error _ => old
  | .inf, _ => old
  | .aff _ _, .inf => old

/-- One round of the engine on its working values, for the command word `w` in flight (10_state.md R31). -/
def workRound (w : Word) (o : Operands) (k : Work) : Work :=
  match decode w with
  | .ok .modinv | .ok .affdec => { k with euclid := euclidNext k.euclid }
  | .ok .smul => { k with scalar := scalarWork k.scalar (curveA o) (modulus o) }
  | .ok .padd => { k with slope := slopeWork k.slope (point1 o) (point2 o) (curveA o) (modulus o) }
  | .ok .pdbl => { k with slope := slopeWork k.slope (point1 o) (point1 o) (curveA o) (modulus o) }
  | .ok .oncurve | .ok .affenc => k
  | .error _ => k

/-- `n` rounds. -/
def workRounds : Nat → Word → Operands → Work → Work
  | 0, _, _, k => k
  | n + 1, w, o, k => workRound w o (workRounds n w o k)

end Sys2Proof.Machine
end

