-- ==== Sys2Proof/Machine/Ops.lean ====
section
/-! DEFINITION. The named operations on the state: the register map, reading and writing registers, host transactions, issue,
and the one shared way a command ends, with a result or with an error. -/

namespace Sys2Proof.Machine

/-- Every register (10_state.md R21). -/
def allRegs : List Reg :=
  [.ctrl, .cmd, .status, .mod, .ca, .cb, .k, .x1, .y1, .x2, .y2, .pinf, .val, .afa, .afb, .chr, .res0, .res1, .rinf]

/-- The byte offset of a register in the window (10_state.md R21). -/
def regOffset : Reg → Nat
  | .ctrl => 0x00
  | .cmd => 0x04
  | .status => 0x08
  | .mod => 0x10
  | .ca => 0x14
  | .cb => 0x18
  | .k => 0x1C
  | .x1 => 0x20
  | .y1 => 0x24
  | .x2 => 0x28
  | .y2 => 0x2C
  | .pinf => 0x30
  | .val => 0x34
  | .afa => 0x38
  | .afb => 0x3C
  | .chr => 0x40
  | .res0 => 0x50
  | .res1 => 0x54
  | .rinf => 0x58

/-- The register at an offset; `none` where the window is unmapped (20_memory.md R66). -/
def regAt (off : Nat) : Option Reg := allRegs.find? (fun r => regOffset r == off)

/-- The 32 bits a read of a register returns: unimplemented bits and CMD read 0 (10_state.md R21, R28; 20_memory.md R65). -/
def readReg (s : State) : Reg → Word
  | .ctrl => s.ctrl.setWidth 32
  | .cmd => 0
  | .status => statusWord s.status
  | .mod => s.operands.mod
  | .ca => s.operands.ca
  | .cb => s.operands.cb
  | .k => s.operands.k
  | .x1 => s.operands.x1
  | .y1 => s.operands.y1
  | .x2 => s.operands.x2
  | .y2 => s.operands.y2
  | .pinf => s.operands.pinf.setWidth 32
  | .val => s.operands.val
  | .afa => s.operands.afa
  | .afb => s.operands.afb
  | .chr => s.operands.chr.setWidth 32
  | .res0 => s.results.res0
  | .res1 => s.results.res1
  | .rinf => s.results.rinf.setWidth 32

/-- The value a host read of an aligned offset returns (20_memory.md R65, R66). -/
def windowRead (s : State) (off : Nat) : Word :=
  match regAt off with
  | some r => readReg s r
  | none => 0

/-- One byte of the window as a byte-addressed platform sees it: little-endian (20_memory.md R69). -/
def windowByte (s : State) (addr : Nat) : Byte := byteOfWord (windowRead s (addr / 4 * 4)) (addr % 4)

/-- Store the implemented bits of a written word in a register the host may write; any other register keeps its value
(70_reset_and_hazards.md R260, 20_memory.md R65). CMD and STATUS have writes of their own, `issue` and `statusW1C`. -/
def storeReg (r : Reg) (v : Word) (s : State) : State :=
  match r with
  | .ctrl => { s with ctrl := v.setWidth 2 }
  | .mod => { s with operands := { s.operands with mod := v } }
  | .ca => { s with operands := { s.operands with ca := v } }
  | .cb => { s with operands := { s.operands with cb := v } }
  | .k => { s with operands := { s.operands with k := v } }
  | .x1 => { s with operands := { s.operands with x1 := v } }
  | .y1 => { s with operands := { s.operands with y1 := v } }
  | .x2 => { s with operands := { s.operands with x2 := v } }
  | .y2 => { s with operands := { s.operands with y2 := v } }
  | .pinf => { s with operands := { s.operands with pinf := v.setWidth 2 } }
  | .val => { s with operands := { s.operands with val := v } }
  | .afa => { s with operands := { s.operands with afa := v } }
  | .afb => { s with operands := { s.operands with afb := v } }
  | .chr => { s with operands := { s.operands with chr := v.setWidth 8 } }
  | .cmd | .status | .res0 | .res1 | .rinf => s

/-- Issue of the command word `w` (30_encoding.md R95), with the working values re-initialised (10_state.md R31). -/
def issue (w : Word) (s : State) : State :=
  { s with oplatch := w, status := statusIssued s.status, work := workStart w s.operands }

/-- A write dropped by the busy lock: it only sets WERR (70_reset_and_hazards.md R260). -/
def dropWrite (s : State) : State := { s with status := statusDropped s.status }

/-- `MemWrite(off, 4, v)` (70_reset_and_hazards.md R260), for an aligned offset of the window. -/
def windowWrite (off : Nat) (v : Word) (s : State) : State :=
  if off = regOffset .status then { s with status := statusW1C v s.status }
  else if s.status.busy then dropWrite s
  else if off = regOffset .cmd then issue v s
  else
    match regAt off with
    | some r => storeReg r v s
    | none => s

/-- A completion with `Ok(r0, r1, rinf)`: the three result registers and STATUS together (30_encoding.md R96, R97). -/
def completeOk (r : Results) (s : State) : State := { s with results := r, status := statusCompleted 0 s.status }

/-- TAKING AN ERROR, the block's one kind of exception: a completion with `Err(code)` writes only STATUS, saves no context and
transfers control nowhere (60_exceptions.md R228). There is no return from it: "There is no return instruction and nothing
to restore" (R229); the next issue clears the code and a write of STATUS clears DONE (`issue`, `statusW1C`). -/
def completeErr (e : Err) (s : State) : State := { s with status := statusCompleted (errCode e) s.status }

/-- The completion step's writes, from the outcome of `Execute` (30_encoding.md R96). -/
def commit (outcome : Except Err Results) (s : State) : State :=
  match outcome with
  | .ok r => completeOk r s
  | .error e => completeErr e s

/-- `raise BadModulus` when `p = 0` (60_exceptions.md R224), else the modulus. -/
def checkedModulus (o : Operands) : Except Err Nat :=
  if modulus o = 0 then .error .badModulus else .ok (modulus o)

/-- `CheckPoints` (42_ecc_point.md R166): with CTRL.PCHK = 1 every point listed has to be on the curve. -/
def pointsAccepted (s : State) (points : List Point) : Bool :=
  !pointCheck s || points.all (fun P => onCurve P (curveA s.operands) (curveB s.operands) (modulus s.operands))

/-- The common prologue and the end of PADD, PDBL and SMUL (42_ecc_point.md R167): BadModulus, then the point check, then the
arithmetic, then `EncodePoint`. -/
def pointCommand (s : State) (points : List Point) (arithmetic : Except Err Point) : Except Err Results :=
  match checkedModulus s.operands with
  | .error e => .error e
  | .ok _ =>
    if pointsAccepted s points then
      match arithmetic with
      | .ok R => .ok (encodePoint R)
      | .error e => .error e
    else .error .invalidPoint

end Sys2Proof.Machine
end

