-- ==== Sys2Proof/Machine/Affine.lean ====
section
/-! DEFINITION. AFFENC and AFFDEC (41_affine.md). -/

namespace Sys2Proof.Machine

/-- `AffEncIdx(a, b, x)` (41_affine.md R141). -/
def affEncIdx (a b : Int) (x : Nat) : Nat := modulo (a * x + b) Config.affineModulus

/-- `AffDecIdx(ainv, b, y)` (41_affine.md R145). -/
def affDecIdx (ainv : Nat) (b : Int) (y : Nat) : Nat := modulo ((ainv : Int) * ((y : Int) - b)) Config.affineModulus

/-- `ExecAFFENC` (41_affine.md R142): a letter goes through the affine map, any other character passes. No error. -/
def affencOutcome (s : State) : Except Err Results :=
  let c := charCode s.operands
  if isLetter c then
    .ok (encodeInt (letterOf (affEncIdx (sint s.operands.afa) (sint s.operands.afb) (letterIndex c))))
  else .ok (encodeInt c)

/-- `ExecAFFDEC` (41_affine.md R146): the inverse of `a` first, whatever the character. -/
def affdecOutcome (s : State) : Except Err Results :=
  match modInv (sint s.operands.afa) Config.affineModulus with
  | .error e => .error e
  | .ok ainv =>
    let c := charCode s.operands
    if isLetter c then .ok (encodeInt (letterOf (affDecIdx ainv (sint s.operands.afb) (letterIndex c))))
    else .ok (encodeInt c)

/-- AFFENC: affine-encrypt one character (41_affine.md R142). -/
def execAffenc (s : State) : Host.Outcome State Fault Refusal := .next (commit (affencOutcome s) s)

/-- AFFDEC: affine-decrypt one character (41_affine.md R146). -/
def execAffdec (s : State) : Host.Outcome State Fault Refusal := .next (commit (affdecOutcome s) s)

end Sys2Proof.Machine
end

