-- ==== Sys2Proof/Machine/Curve.lean ====
section
/-! DEFINITION. ONCURVE, PADD and PDBL (42_ecc_point.md). -/

namespace Sys2Proof.Machine

/-- `ExecONCURVE` (42_ecc_point.md R162): a point off the curve is the answer 0, not an error. -/
def oncurveOutcome (s : State) : Except Err Results :=
  match checkedModulus s.operands with
  | .error e => .error e
  | .ok p => .ok (encodeTruth (onCurve (point1 s.operands) (curveA s.operands) (curveB s.operands) p))

/-- `ExecPADD` (42_ecc_point.md R168). -/
def paddOutcome (s : State) : Except Err Results :=
  pointCommand s [point1 s.operands, point2 s.operands]
    (pointAdd (point1 s.operands) (point2 s.operands) (curveA s.operands) (modulus s.operands))

/-- `ExecPDBL` (42_ecc_point.md R172). -/
def pdblOutcome (s : State) : Except Err Results :=
  pointCommand s [point1 s.operands] (pointDbl (point1 s.operands) (curveA s.operands) (modulus s.operands))

/-- ONCURVE: is P1 on the curve (42_ecc_point.md R162). -/
def execOncurve (s : State) : Host.Outcome State Fault Refusal := .next (commit (oncurveOutcome s) s)

/-- PADD: the sum of P1 and P2 (42_ecc_point.md R168). -/
def execPadd (s : State) : Host.Outcome State Fault Refusal := .next (commit (paddOutcome s) s)

/-- PDBL: the double of P1 (42_ecc_point.md R172). -/
def execPdbl (s : State) : Host.Outcome State Fault Refusal := .next (commit (pdblOutcome s) s)

end Sys2Proof.Machine
end

