-- ==== Sys2Proof/Machine/Modinv.lean ====
section
/-! DEFINITION. MODINV (40_modinv.md). -/

namespace Sys2Proof.Machine

/-- `ExecMODINV` (40_modinv.md R122): BadModulus when `m = 0`, tested first; else `ModInv(v, m)`. -/
def modinvOutcome (s : State) : Except Err Results :=
  match checkedModulus s.operands with
  | .error e => .error e
  | .ok m =>
    match modInv (sint s.operands.val) m with
    | .ok i => .ok (encodeInt i)
    | .error e => .error e

/-- MODINV: the completion of a modular inverse (40_modinv.md R122). -/
def execModinv (s : State) : Host.Outcome State Fault Refusal := .next (commit (modinvOutcome s) s)

end Sys2Proof.Machine
end

