-- ==== Sys2Proof/Machine/Smul.lean ====
section
/-! DEFINITION. SMUL (43_ecc_smul.md). -/

namespace Sys2Proof.Machine

/-- `ExecSMUL` (43_ecc_smul.md R192): the scalar K is used as it is, never reduced (R194). -/
def smulOutcome (s : State) : Except Err Results :=
  pointCommand s [point1 s.operands]
    (scalarMul (uint s.operands.k) (point1 s.operands) (curveA s.operands) (modulus s.operands))

/-- SMUL: the scalar multiple of P1 (43_ecc_smul.md R192). -/
def execSmul (s : State) : Host.Outcome State Fault Refusal := .next (commit (smulOutcome s) s)

end Sys2Proof.Machine
end

