-- ==== Sys2Proof/Machine/Dispatch.lean ====
section
/-! DEFINITION. `Execute`: the dispatch of 30_encoding.md R98, one arm per command. -/

namespace Sys2Proof.Machine

def exec (i : Instr) (s : State) : Host.Outcome State Fault Refusal :=
  match i with
  | .modinv => Sys2Proof.Machine.execModinv s
  | .padd => Sys2Proof.Machine.execPadd s
  | .pdbl => Sys2Proof.Machine.execPdbl s
  | .smul => Sys2Proof.Machine.execSmul s
  | .oncurve => Sys2Proof.Machine.execOncurve s
  | .affenc => Sys2Proof.Machine.execAffenc s
  | .affdec => Sys2Proof.Machine.execAffdec s

end Sys2Proof.Machine
end

