-- ==== Sys2Proof/Machine/Sequencer.lean ====
section
/-! DEFINITION. What each event does to the block: host transactions, the completion of the command in flight, a round on the
working values, reset. -/

namespace Sys2Proof.Machine

/-- The completion of an illegal command word: error code 4, no register but STATUS changes (30_encoding.md R93). -/
def completeIllegal (s : State) : State := completeErr .illegalCmd s

/-- The completion step: `Execute(OPLATCH)` (30_encoding.md R96, R98), the whole command in one step (10_state.md R31; log
entry 7). The meanings do not test BUSY themselves; only `applyEvent` and `step` call this, while busy (log entry 15). -/
def completion (s : State) : Host.Outcome State Fault Refusal :=
  match decode s.oplatch with
  | .ok i => exec i s
  | .error _ => .next (completeIllegal s)

/-- A request the port cannot make stops by name (20_memory.md R64; log entry 9). -/
def portCheck (off size : Nat) (k : Host.Outcome State Fault Refusal) : Host.Outcome State Fault Refusal :=
  if inWindow off then (if wholeWord off size then k else .refused (.notAWordAccess off size))
  else .fault (.outsideWindow off)

/-- A host read: it returns a value and changes nothing (20_memory.md R68). -/
def hostRead (off size : Nat) (s : State) : Host.Outcome State Fault Refusal :=
  portCheck off size (.next { s with rdata := windowRead s off })

/-- A host write (70_reset_and_hazards.md R260). -/
def hostWrite (off size : Nat) (v : Word) (s : State) : Host.Outcome State Fault Refusal :=
  portCheck off size (.next (windowWrite off v s))

/-- Reset: every register, OPLATCH and every working value is 0, the command in flight is discarded
(70_reset_and_hazards.md R250, R251). The events still to come stay. -/
def resetBlock (s : State) : State := { State.reset with events := s.events }

/-- One round of the engine on its working values while a command runs (10_state.md R31). -/
def engineWork (s : State) : State := { s with work := workRound s.oplatch s.operands s.work }

/-- One event. "No completion happens while BUSY = 0" (30_encoding.md R96), and no work either: such
an event is used up without effect (log entry 11). -/
def applyEvent (e : Event) (s : State) : Host.Outcome State Fault Refusal :=
  match e with
  | .read off size => hostRead off size s
  | .write off size v => hostWrite off size v s
  | .completion => if s.status.busy then completion s else .next s
  | .work => if s.status.busy then .next (engineWork s) else .next s
  | .reset => .next (resetBlock s)

/-- A list of events, in order (20_memory.md R72). -/
def applyEvents : List Event → State → Host.Outcome State Fault Refusal
  | [], s => .next s
  | e :: es, s =>
    match applyEvent e s with
    | .next t => applyEvents es t
    | .fault r => .fault r
    | .refused r => .refused r

end Sys2Proof.Machine
end

