-- ==== Sys2Proof/Machine/Step.lean ====
section
/-! DEFINITION. One step of the block, and where it takes its next command from. -/

namespace Sys2Proof.Machine

/-- One step: the next event happens. With no event left, a command in flight completes (70_reset_and_hazards.md R266: "an
enabled completion eventually happens"), and an idle block keeps all its registers (60_exceptions.md R245). -/
def step (s : State) : Host.Outcome State Fault Refusal :=
  match s.events with
  | e :: rest => applyEvent e { s with events := rest }
  | [] => if s.status.busy then completion s else .next s

/-- `s` with the command word issued (30_encoding.md R95) and its completion the very next event: the block executes the word in
OPLATCH, it fetches nothing (10_state.md R32; log entry 10). -/
def State.withFetchWord (s : State) (nbits w : Nat) : State :=
  { issue (tableWord nbits w) s with events := .completion :: s.events }

end Sys2Proof.Machine
end

