-- ==== Sys2Proof/Machine/HostSeq.lean ====
section
/-! DEFINITION. The host notation and the host sequences (30_encoding.md R106 to R108, 44_host_sequences.md R210 to R215). -/

namespace Sys2Proof.Machine

/-- `WR NAME, v` as an event (30_encoding.md R106). -/
def wrEvent (r : Reg) (v : Word) : Event := .write (regOffset r) 4 v

/-- `RD NAME` as an event (30_encoding.md R106). -/
def rdEvent (r : Reg) : Event := .read (regOffset r) 4

/-- What a `WR` of a line's expansion writes (30_encoding.md R106, R107). -/
inductive HostValue where
  /-- A value of the program. -/
  | lit (v : Word)
  /-- `(pinf and keep) or set`. -/
  | pinf (keep set : Word)
  /-- The value that the last read but `n` returned: `r0`, `r1` of `MOVR`. -/
  | readBack (n : Nat)
  /-- `(pinf and keep) or (rinf[0] · 2^place)`, where `rinf` is the value the last read returned. -/
  | pinfRinf (keep : Word) (place : Nat)
  deriving DecidableEq, Repr

/-- One host action: one transaction, or a `WAIT` (30_encoding.md R106). -/
inductive HostAct where
  | wr (r : Reg) (v : HostValue)
  | rd (r : Reg)
  | wait
  deriving DecidableEq, Repr

/-- The expansion of a line (30_encoding.md R106, R107). -/
def lineActs : HostLine → List HostAct
  | .wr r v => [.wr r (.lit v)]
  | .rd r => [.rd r]
  | .cmd i => [.wr .cmd (.lit (encode i))]
  | .wait => [.wait]
  | .curve a b p => [.wr .ca (.lit a), .wr .cb (.lit b), .wr .mod (.lit p)]
  | .setP1 x y => [.wr .x1 (.lit x), .wr .y1 (.lit y), .wr .pinf (.pinf 2 0)]
  | .setP2 x y => [.wr .x2 (.lit x), .wr .y2 (.lit y), .wr .pinf (.pinf 1 0)]
  | .setP1Inf => [.wr .pinf (.pinf 0xFFFFFFFF 1)]
  | .setP2Inf => [.wr .pinf (.pinf 0xFFFFFFFF 2)]
  | .run i => [.wr .cmd (.lit (encode i)), .wait]
  | .movr1 =>
    [.rd .res0, .rd .res1, .rd .rinf, .wr .x1 (.readBack 2), .wr .y1 (.readBack 1), .wr .pinf (.pinfRinf 2 0)]
  | .movr2 =>
    [.rd .res0, .rd .res1, .rd .rinf, .wr .x2 (.readBack 2), .wr .y2 (.readBack 1), .wr .pinf (.pinfRinf 1 1)]
  | .ack => [.wr .status (.lit 0x00000002)]
  | .clrwerr => [.wr .status (.lit 0x00000100)]

/-- The actions of a program, "one host action per line, executed in order" (30_encoding.md R106). -/
def programActs (lines : List HostLine) : List HostAct := lines.flatMap lineActs

/-- One transaction that was made: `(W, off, data)`, or `(R, off, -)` and the value returned (30_encoding.md R106). -/
inductive Transaction where
  | write (off : Nat) (data : Word)
  | read (off : Nat) (returned : Word)
  deriving DecidableEq, Repr

/-- The value a read returned (30_encoding.md R106). -/
def returnedValue : Transaction → Option Word
  | .write _ _ => none
  | .read _ v => some v

/-- `W` or `R` (true for `W`), the byte offset, and the data, which a read does not give (30_encoding.md R106, R108). -/
def triple : Transaction → Bool × Nat × Option Word
  | .write off v => (true, off, some v)
  | .read off _ => (false, off, none)

/-- A host program under way: the block, what is left to do, `pinf`, "the value last written to PINF" (30_encoding.md R107), and the
transactions made so far, the last one first. -/
structure HostRun where
  block : State
  todo : List HostAct
  pinf : Word
  made : List Transaction
  deriving DecidableEq, Repr

/-- The program starts (30_encoding.md R106); `pinf` is 0 after reset (R107). -/
def hostStart (lines : List HostLine) (pinf : Word) (s : State) : HostRun :=
  { block := s, todo := programActs lines, pinf := pinf, made := [] }

/-- The value that the last read but `n` returned; after a `WAIT`, at `n = 0`, "the last value read is the result of the line"
(30_encoding.md R106). 0 where there were fewer reads, which no line's expansion asks for. -/
def readBackValue (h : HostRun) (n : Nat) : Word := (h.made.filterMap returnedValue).getD n 0

/-- What a `WR` writes (30_encoding.md R107). -/
def hostValue (h : HostRun) : HostValue → Word
  | .lit v => v
  | .pinf keep set => (h.pinf &&& keep) ||| set
  | .readBack n => readBackValue h n
  | .pinfRinf keep place => (h.pinf &&& keep) ||| ((readBackValue h 0 &&& 1) <<< place)

/-- The host's next action on the block. `WAIT` is one read of STATUS, and stays the next action until the value read has DONE = 1
(30_encoding.md R106): on an idle block with DONE = 0 it never ends. -/
def hostAct (h : HostRun) : Host.Outcome HostRun Fault Refusal :=
  match h.todo with
  | [] => .next h
  | .wr r v :: rest =>
    match applyEvent (wrEvent r (hostValue h v)) h.block with
    | .next t =>
      .next { block := t, todo := rest, pinf := if r = .pinf then hostValue h v else h.pinf,
              made := .write (regOffset r) (hostValue h v) :: h.made }
    | .fault e => .fault e
    | .refused e => .refused e
  | .rd r :: rest =>
    match applyEvent (rdEvent r) h.block with
    | .next t => .next { h with block := t, todo := rest, made := .read (regOffset r) t.rdata :: h.made }
    | .fault e => .fault e
    | .refused e => .refused e
  | .wait :: rest =>
    match applyEvent (rdEvent .status) h.block with
    | .next t =>
      .next { h with block := t, todo := if statusDone t.rdata then rest else .wait :: rest,
                     made := .read (regOffset .status) t.rdata :: h.made }
    | .fault e => .fault e
    | .refused e => .refused e

/-- One access of the host, with a completion before it or none: "*when* a completion falls between the host's accesses" is the
only freedom of a run (00_scope.md R18, log entry 13). -/
def hostStep (completes : Bool) (h : HostRun) : Host.Outcome HostRun Fault Refusal :=
  match (if completes then applyEvent .completion h.block else .next h.block) with
  | .next t => hostAct { h with block := t }
  | .fault e => .fault e
  | .refused e => .refused e

/-- The program under way for as many accesses as the schedule has entries, each saying whether a completion falls before the access
(30_encoding.md R106, log entry 13). The program has ended when nothing is left to do. -/
def hostRun : List Bool → HostRun → Host.Outcome HostRun Fault Refusal
  | [], h => .next h
  | c :: cs, h =>
    match hostStep c h with
    | .next g => hostRun cs g
    | .fault e => .fault e
    | .refused e => .refused e

/-- A host program run on the block, line by line, on a schedule of completions (30_encoding.md R106). -/
def runLines (schedule : List Bool) (lines : List HostLine) (pinf : Word) (s : State) : Host.Outcome HostRun Fault Refusal :=
  hostRun schedule (hostStart lines pinf s)

/-- The transactions a program has made, in order (30_encoding.md R108). -/
def transactions (h : HostRun) : List Transaction := h.made.reverse

/-- "The encoding of a program is the list of its transactions in order, each a triple `(W or R, byte offset, data)`"
(30_encoding.md R108), on a schedule of completions, which fixes how often each `WAIT` reads. -/
def programEncoding (schedule : List Bool) (lines : List HostLine) (pinf : Word) (s : State) :
    Host.Outcome (List (Bool × Nat × Option Word)) Fault Refusal :=
  match runLines schedule lines pinf s with
  | .next h => .next ((transactions h).map triple)
  | .fault e => .fault e
  | .refused e => .refused e

/-- `PublicKey(d)` (44_host_sequences.md R211). -/
def publicKeyLines (a b p gx gy d : Word) : List HostLine :=
  [.curve a b p, .setP1 gx gy, .wr .k d, .run .smul, .rd .res0, .rd .res1, .rd .rinf]

/-- `SharedSecret(d, Q)` for `Q = (qx, qy)` (44_host_sequences.md R211). -/
def sharedSecretLines (a b p qx qy d : Word) : List HostLine :=
  [.curve a b p, .setP1 qx qy, .wr .k d, .run .smul, .rd .res0, .rd .res1, .rd .rinf]

/-- `SharedSecret(d, INF)` (44_host_sequences.md R211). -/
def sharedSecretInfLines (a b p d : Word) : List HostLine :=
  [.curve a b p, .setP1Inf, .wr .k d, .run .smul, .rd .res0, .rd .res1, .rd .rinf]

/-- The schedule of `WR`, `CMD`, `WAIT` where `polls` reads show BUSY before the completion (log entry 13). -/
def useSchedule (polls : Nat) : List Bool := false :: false :: (List.replicate polls false ++ [true])

/-- The loop of `Transform` (44_host_sequences.md R214): one use per character, in order, until one ends with an error. ERR is
taken from the STATUS value that showed DONE (R210 (4)), `out[i]` is what `RD RES0` returns (20_memory.md R68). `polls n` is the
number of BUSY reads in the `WAIT` of character `n`, each its own (log entry 13). The answer is the output gathered so far, the
error code (0 for none) and the block after it. -/
def transformLoop (i : Instr) (polls : Nat → Nat) : List Byte → List Word → State →
    Host.Outcome (List Word × BitVec 4 × State) Fault Refusal
  | [], out, s => .next (out, 0, s)
  | c :: cs, out, s =>
    match runLines (useSchedule (polls out.length)) [.wr .chr (c.setWidth 32), .run i] 0 s with
    | .next h =>
      if statusErr (readBackValue h 0) ≠ 0 then .next (out, statusErr (readBackValue h 0), h.block)
      else
        match applyEvent (rdEvent .res0) h.block with
        | .next u => transformLoop i polls cs (out ++ [u.rdata]) u
        | .fault r => .fault r
        | .refused r => .refused r
    | .fault r => .fault r
    | .refused r => .refused r

/-- `Transform(cmd, text)`: AFA and AFB written once, then the loop; `cmd` is AFFENC or AFFDEC (44_host_sequences.md R214). -/
def transform (i : Instr) (a b : Word) (text : List Byte) (polls : Nat → Nat) (s : State) :
    Host.Outcome (List Word × BitVec 4 × State) Fault Refusal :=
  match applyEvents [wrEvent .afa a, wrEvent .afb b] s with
  | .next t => transformLoop i polls text [] t
  | .fault r => .fault r
  | .refused r => .refused r

end Sys2Proof.Machine
end

