-- ==== Sys2Proof/Machine/Port.lean ====
section
/-! DEFINITION. The pins and the clock edge (20_memory.md R62, R63): which events one edge is, and in which order. -/

namespace Sys2Proof.Machine

/-- The input pins in one clock cycle (20_memory.md R62), and whether the completion of the command in flight is due on the
edge that ends it, which the spec leaves open (70_reset_and_hazards.md R266). -/
structure Pins where
  rst : Bool
  req : Bool
  we : Bool
  idx : BitVec 6
  wdata : Word
  due : Bool
  deriving DecidableEq, Repr

/-- The transaction of a cycle, if any (20_memory.md R63). -/
def pinAccess (p : Pins) : List Event :=
  if p.req then (if p.we then [.write (4 * p.idx.toNat) 4 p.wdata] else [.read (4 * p.idx.toNat) 4]) else []

/-- The events of one edge, in order: reset beats everything (70_reset_and_hazards.md R251), then the host transaction, then the
completion (20_memory.md R73, 60_exceptions.md R227). A completion due on the edge of the issue itself is a latency of 1
(70_reset_and_hazards.md R266; log entry 14). -/
def pinEvents (p : Pins) : List Event :=
  if p.rst then [.reset] else pinAccess p ++ (if p.due then [.completion] else [])

/-- One clock edge. -/
def clockEdge (p : Pins) (s : State) : Host.Outcome State Fault Refusal := applyEvents (pinEvents p) s

/-- The output pins (20_memory.md R62). `rdata` carries a value only in a cycle that is a read; in any other the spec gives it
none. -/
structure PinsOut where
  rdata : Option Word
  irq : Bool
  deriving DecidableEq, Repr

/-- `rdata`, "a function of the state before the edge that ends the cycle" (20_memory.md R62), reading 0 while `rst` is 1
(70_reset_and_hazards.md R250; log entry 5); and `irq` (10_state.md R36). -/
def pinsOut (p : Pins) (s : State) : PinsOut where
  rdata := if p.req && !p.we then some (if p.rst then 0 else windowRead s (4 * p.idx.toNat)) else none
  irq := irq s

end Sys2Proof.Machine
end

