-- ==== Sys2Proof/Safety.lean ====
section
/-! DEFINITION. What claims are stated in: the legal values of STATUS and of the result registers, the working values of a
running command, requests the port can make, and the registers a command reads. -/

namespace Sys2Proof.Machine

/-- STATUS holds one of the values of 30_encoding.md R99: BUSY and DONE never both, no code above 4, and no code while busy. -/
def StatusLegal (s : State) : Prop :=
  (s.status.busy = true → s.status.done = false ∧ s.status.err = 0) ∧ s.status.err.toNat ≤ 4

/-- A result `Inf` stands with RES0 = RES1 = 0 (30_encoding.md R104, 10_state.md R26). -/
def ResultsCanonical (s : State) : Prop := s.results.rinf = 1 → s.results.res0 = 0 ∧ s.results.res1 = 0

/-- While a command runs, the working values are some number of rounds on from its issue on the operands as they stand
(10_state.md R31, R38). -/
def WorkTracksOperands (s : State) : Prop :=
  s.status.busy = true → ∃ n, s.work = workRounds n s.oplatch s.operands (workStart s.oplatch s.operands)

/-- Every request still to come is one the port can make (20_memory.md R64). -/
def RequestsWellFormed (s : State) : Prop := s.events.all Event.wf = true

/-- What a command reads (10_state.md R37), and nothing else: CB only under the point check, the coordinates of a point only
when its infinity flag is 0 (30_encoding.md R104). -/
def commandView (i : Instr) (s : State) : List (Option Word) :=
  let o := s.operands
  let coords := fun (isInf : Bool) (x y : Word) => if isInf then [none, none] else [some x, some y]
  let checked := if pointCheck s then some o.cb else none
  match i with
  | .modinv => [some o.mod, some o.val]
  | .affenc | .affdec => [some o.afa, some o.afb, some (o.chr.setWidth 32)]
  | .oncurve => [some o.mod, some o.ca, some o.cb] ++ coords (p1Inf o) o.x1 o.y1
  | .padd => [some o.mod, some o.ca, checked] ++ coords (p1Inf o) o.x1 o.y1 ++ coords (p2Inf o) o.x2 o.y2
  | .pdbl => [some o.mod, some o.ca, checked] ++ coords (p1Inf o) o.x1 o.y1
  | .smul => [some o.mod, some o.ca, some o.k, checked] ++ coords (p1Inf o) o.x1 o.y1

end Sys2Proof.Machine
end

