-- ==== Sys2Proof/Certificates/Slice0/Obligations.lean ====
section
/-! DEFINITION. The statements for the provers. Each is written from the numbered rules it cites; the names under
`Sys2Proof.Claims` are the vocabulary they share. A next state is written out in full, so each result statement is also the
frame of its instruction: whatever the written state does not name is unchanged. -/

namespace Sys2Proof.Claims

open Sys2Proof Sys2Proof.Machine

/-- A successful completion (30_encoding.md R96): the three result registers and STATUS; nothing else. -/
def endsOk (s : State) (r0 r1 : Word) (rinf : BitVec 1) : State :=
  { s with
    results := { res0 := r0, res1 := r1, rinf := rinf }
    status := { busy := false, done := true, err := 0, werr := s.status.werr } }

/-- A completion with an error code (60_exceptions.md R228): STATUS; nothing else. -/
def endsErr (s : State) (code : BitVec 4) : State :=
  { s with status := { busy := false, done := true, err := code, werr := s.status.werr } }

/-- `i` is the inverse of `v` modulo `m` (40_modinv.md R121). -/
def IsInverse (v : Int) (m i : Nat) : Prop := i < m ∧ (v * i) % m = 1 % m

/-- The curve equation (42_ecc_point.md R161) at `(x, y)`, for the curve in CA, CB and MOD. -/
def OnTheCurve (o : Operands) (x y : Nat) : Prop :=
  ((y : Int) ^ 2 - ((x : Int) ^ 3 + o.ca.toInt * x + o.cb.toInt)) % o.mod.toNat = 0

/-- P1INF and P2INF (10_state.md R23). -/
def inf1 (o : Operands) : Prop := o.pinf.getLsbD 0 = true
def inf2 (o : Operands) : Prop := o.pinf.getLsbD 1 = true

/-- P1 (P2) is `Inf` or satisfies the curve equation. -/
def P1OnCurve (o : Operands) : Prop := inf1 o ∨ OnTheCurve o o.x1.toNat o.y1.toNat
def P2OnCurve (o : Operands) : Prop := inf2 o ∨ OnTheCurve o o.x2.toNat o.y2.toNat

/-- CTRL.PCHK (10_state.md R27). -/
def PchkOn (s : State) : Prop := s.ctrl.getLsbD 1 = true

/-- PADD (PDBL and SMUL) get past their prologue (42_ecc_point.md R167): a modulus, and with PCHK = 1 points on the curve. -/
def PaddReady (s : State) : Prop := s.operands.mod ≠ 0 ∧ (PchkOn s → P1OnCurve s.operands ∧ P2OnCurve s.operands)
def OnePointReady (s : State) : Prop := s.operands.mod ≠ 0 ∧ (PchkOn s → P1OnCurve s.operands)

/-- The coordinates of P1 (P2) lie below the modulus when the point is affine. -/
def P1Reduced (o : Operands) : Prop := ¬ inf1 o → o.x1.toNat < o.mod.toNat ∧ o.y1.toNat < o.mod.toNat
def P2Reduced (o : Operands) : Prop := ¬ inf2 o → o.x2.toNat < o.mod.toNat ∧ o.y2.toNat < o.mod.toNat

/-- A prime modulus above 2 and a non-singular curve (42_ecc_point.md R160, R176). -/
def PrimeCurve (o : Operands) : Prop :=
  o.mod.toNat.Prime ∧ 2 < o.mod.toNat ∧ (4 * o.ca.toInt ^ 3 + 27 * o.cb.toInt ^ 2) % o.mod.toNat ≠ 0

/-- A residue as a register word: `mod(v, m)` zero-extended (00_scope.md R10, 30_encoding.md R103). -/
def residueWord (v : Int) (m : Nat) : Word := BitVec.ofNat 32 (v % m).toNat

/-- The result of a slope `m` (42_ecc_point.md R164 (5)): `x3 = mod(m² − x1 − x2, p)`, `y3 = mod(m·(x1 − x3) − y1, p)`. -/
def slopeX (m x1 x2 p : Int) : Int := (m ^ 2 - x1 - x2) % p
def slopeY (m x1 y1 x2 p : Int) : Int := (m * (x1 - slopeX m x1 x2 p) - y1) % p

/-- The operands with a result point copied into P1 (P2): `MOVR` (30_encoding.md R104, R107). -/
def resultToP1 (o : Operands) (r : Results) : Operands :=
  { o with x1 := r.res0, y1 := r.res1, pinf := (o.pinf &&& 2#2) ||| r.rinf.setWidth 2 }
def resultToP2 (o : Operands) (r : Results) : Operands :=
  { o with x2 := r.res0, y2 := r.res1, pinf := (o.pinf &&& 1#2) ||| (r.rinf.setWidth 2 <<< 1) }

/-- A character code in upper case: `a`..`z` go to `A`..`Z`, every other code stays. -/
def upperCode (c : Nat) : Nat := if 0x61 ≤ c ∧ c ≤ 0x7A then c - 0x20 else c

/-- The values of STATUS with WERR = 0 (30_encoding.md R99). -/
def statusValues : List Word :=
  [0x00000000#32, 0x00000001#32, 0x00000002#32, 0x00000012#32, 0x00000022#32, 0x00000032#32, 0x00000042#32,
   0x00000010#32, 0x00000020#32, 0x00000030#32, 0x00000040#32]

/-- STATUS reads as a value of 30_encoding.md R99: one of the list, or one of the list plus 0x100. -/
def StatusListed (s : State) : Prop :=
  windowRead s 0x08 ∈ statusValues ∨ ∃ w ∈ statusValues, windowRead s 0x08 = w + 0x100#32

/-- The operand registers and CTRL, which the host may write (10_state.md R21). -/
def writableRegs : List Reg :=
  [.ctrl, .mod, .ca, .cb, .k, .x1, .y1, .x2, .y2, .pinf, .val, .afa, .afb, .chr]

/-- The implemented bits of a register the host may write (10_state.md R21). -/
def implementedBits : Reg → Word
  | .ctrl | .pinf => 0x00000003#32
  | .chr => 0x000000FF#32
  | _ => 0xFFFFFFFF#32

/-- The completion of the command in flight is what the next step does: it is the next event, or no event is left. -/
def CompletionNext (s : State) (rest : List Event) : Prop :=
  s.status.busy = true ∧ (s.events = .completion :: rest ∨ (s.events = [] ∧ rest = []))

/-- The loop of `ScalarMul` (43_ecc_smul.md R190), as a relation: from scalar `k`, running result `R` and addend `A` it ends with
`some` point, or with `none` when an addition raises NoInverse. -/
inductive DoubleAndAdd (a : Int) (p : Nat) : Nat → Point → Point → Option Point → Prop
  | finished (R A : Point) : DoubleAndAdd a p 0 R A (some R)
  | skipBit {k : Nat} {R A A' : Point} {out : Option Point} (hk : 0 < k) (hb : k % 2 = 0)
      (hA : pointAdd A A a p = .ok A') (hs : DoubleAndAdd a p (k / 2) R A' out) : DoubleAndAdd a p k R A out
  | addBit {k : Nat} {R R' A A' : Point} {out : Option Point} (hb : k % 2 = 1) (hR : pointAdd R A a p = .ok R')
      (hA : pointAdd A A a p = .ok A') (hs : DoubleAndAdd a p (k / 2) R' A' out) : DoubleAndAdd a p k R A out
  | addFails {k : Nat} {R A : Point} (hb : k % 2 = 1) (hR : pointAdd R A a p = .error .noInverse) :
      DoubleAndAdd a p k R A none
  | doubleFails {k : Nat} {R R' A : Point} (hk : 0 < k) (hR : k % 2 = 1 → pointAdd R A a p = .ok R')
      (hA : pointAdd A A a p = .error .noInverse) : DoubleAndAdd a p k R A none

end Sys2Proof.Claims

open Sys2Proof Sys2Proof.Machine Sys2Proof.Claims

/-! ## Reset and the port -/

/-- 10_state.md R35. -/
def Obligations.ResetLeavesEveryRegisterZero : Prop :=
  (∀ r : Reg, readReg State.reset r = 0) ∧ State.reset.oplatch = 0 ∧
  State.reset.work = { euclid := ⟨0, 0, 0, 0⟩, scalar := ⟨0, .aff 0 0, .aff 0 0⟩, slope := 0 } ∧
  State.reset.status.busy = false ∧ State.reset.status.done = false ∧ State.reset.status.err = 0 ∧
  State.reset.status.werr = false ∧ interruptEnable State.reset = false ∧ pointCheck State.reset = false ∧
  irq State.reset = false ∧ point1 State.reset.operands = .aff 0 0 ∧ point2 State.reset.operands = .aff 0 0 ∧
  ∀ i ∈ [Instr.modinv, .oncurve, .padd, .pdbl, .smul], ∀ s : State, s.operands.mod = 0 → exec i s = .next (endsErr s 3)

/-- 70_reset_and_hazards.md R251. -/
def Obligations.ResetBeatsEverything : Prop :=
  (∀ (p : Pins) (s : State), p.rst = true → clockEdge p s = .next { State.reset with events := s.events }) ∧
  (∀ (s : State) (rest : List Event), s.events = .reset :: rest → step s = .next { State.reset with events := rest }) ∧
  (∀ s t : State, s.status.busy = true → step s = .next t → t.status.busy = false →
    (t.status.done = true ∧ ∃ rest, CompletionNext s rest) ∨
    ∃ rest, s.events = .reset :: rest ∧ t = { State.reset with events := rest })

/-- 70_reset_and_hazards.md R250: while `rst` stays 1. What a read returns in a reset cycle is the model's reading of R250 (log
entry 5). -/
def Obligations.ResetHoldsTheBlock : Prop :=
  ∀ (p : Pins) (es : List Event), p.rst = true →
    clockEdge p { State.reset with events := es } = .next { State.reset with events := es } ∧
    (pinsOut p { State.reset with events := es }).irq = false ∧
    (p.req = true → p.we = false → ∀ s : State, (pinsOut p s).rdata = some 0)

/-- 20_memory.md R68, R65, R66; 70_reset_and_hazards.md R261: a read in any state, busy or not. -/
def Obligations.HostReadChangesNothing : Prop :=
  ∀ (s : State) (off : Nat) (rest : List Event), off < 0x100 → off % 4 = 0 → s.events = .read off 4 :: rest →
    ∃ v : Word, step s = .next { s with events := rest, rdata := v } ∧
      (∀ r : Reg, regOffset r = off → v = readReg s r) ∧ ((∀ r : Reg, regOffset r ≠ off) → v = 0)

/-- 10_state.md R21, R26 to R29: what each offset of the window reads as. -/
def Obligations.EachOffsetReadsItsRegister : Prop :=
  ∀ s : State,
    windowRead s 0x00 = s.ctrl.setWidth 32 ∧ windowRead s 0x04 = 0 ∧ windowRead s 0x08 = statusWord s.status ∧
    windowRead s 0x10 = s.operands.mod ∧ windowRead s 0x14 = s.operands.ca ∧ windowRead s 0x18 = s.operands.cb ∧
    windowRead s 0x1C = s.operands.k ∧ windowRead s 0x20 = s.operands.x1 ∧ windowRead s 0x24 = s.operands.y1 ∧
    windowRead s 0x28 = s.operands.x2 ∧ windowRead s 0x2C = s.operands.y2 ∧
    windowRead s 0x30 = s.operands.pinf.setWidth 32 ∧ windowRead s 0x34 = s.operands.val ∧
    windowRead s 0x38 = s.operands.afa ∧ windowRead s 0x3C = s.operands.afb ∧
    windowRead s 0x40 = s.operands.chr.setWidth 32 ∧ windowRead s 0x50 = s.results.res0 ∧
    windowRead s 0x54 = s.results.res1 ∧ windowRead s 0x58 = s.results.rinf.setWidth 32

/-- 20_memory.md R66. -/
def Obligations.UnmappedOffsetsReadZeroAndIgnoreWrites : Prop :=
  ∀ (s : State) (off : Nat) (v : Word) (rest : List Event),
    (off ∈ [0x0C, 0x44, 0x48, 0x4C] ∨ (0x5C ≤ off ∧ off ≤ 0xFC ∧ off % 4 = 0)) →
    (s.events = .read off 4 :: rest → step s = .next { s with events := rest, rdata := 0 }) ∧
    (s.events = .write off 4 v :: rest → s.status.busy = false → step s = .next { s with events := rest }) ∧
    (s.events = .write off 4 v :: rest → s.status.busy = true →
      step s = .next { s with events := rest, status := { s.status with werr := true } })

/-- 20_memory.md R65. -/
def Obligations.ReadOnlyBitsIgnoreWritesAndUnimplementedBitsReadZero : Prop :=
  ∀ (s : State) (v : Word) (rest : List Event),
    (∀ off ∈ [0x50, 0x54, 0x58], s.events = .write off 4 v :: rest →
      (s.status.busy = false → step s = .next { s with events := rest }) ∧
      (s.status.busy = true → step s = .next { s with events := rest, status := { s.status with werr := true } })) ∧
    (s.events = .write 0x08 4 v :: rest → ∃ d w : Bool,
      step s = .next { s with events := rest, status := { s.status with done := d, werr := w } }) ∧
    windowRead s 0x04 = 0 ∧
    (∀ n, 2 ≤ n → (windowRead s 0x00).getLsbD n = false ∧ (windowRead s 0x30).getLsbD n = false) ∧
    (∀ n, 8 ≤ n → (windowRead s 0x40).getLsbD n = false) ∧ (∀ n, 1 ≤ n → (windowRead s 0x58).getLsbD n = false) ∧
    (∀ n, (n = 2 ∨ n = 3 ∨ 9 ≤ n) → (windowRead s 0x08).getLsbD n = false) ∧
    windowWrite 0x00 v s = windowWrite 0x00 (v &&& 0x00000003#32) s ∧
    windowWrite 0x30 v s = windowWrite 0x30 (v &&& 0x00000003#32) s ∧
    windowWrite 0x40 v s = windowWrite 0x40 (v &&& 0x000000FF#32) s ∧
    windowWrite 0x08 v s = windowWrite 0x08 (v &&& 0x00000102#32) s

/-- 10_state.md R22, R23, R25, R27; 20_memory.md R68: an idle write of an operand register or CTRL stores the implemented bits
and does nothing else. -/
def Obligations.OperandRegisterReadsBackWhatWasWritten : Prop :=
  ∀ (s : State) (r : Reg) (v : Word) (rest : List Event), s.status.busy = false → r ∈ writableRegs →
    s.events = .write (regOffset r) 4 v :: rest →
    ∃ t : State, step s = .next t ∧ readReg t r = v &&& implementedBits r ∧ (∀ r' : Reg, r' ≠ r → readReg t r' = readReg s r') ∧
      t.oplatch = s.oplatch ∧ t.work = s.work ∧ t.rdata = s.rdata ∧ t.events = rest

/-- 70_reset_and_hazards.md R260: its consequence first, then a write of each kind of offset. -/
def Obligations.BusyLockDropsEveryWriteButStatus : Prop :=
  (∀ s t : State, s.status.busy = true → (∀ rest, s.events ≠ .reset :: rest) → step s = .next t →
    t.operands = s.operands ∧ t.ctrl = s.ctrl) ∧
  ∀ (s : State) (off : Nat) (v : Word) (rest : List Event), off < 0x100 → off % 4 = 0 → s.events = .write off 4 v :: rest →
    (off = 0x08 → step s = .next { s with
      events := rest
      status := { s.status with
        done := if v.getLsbD 1 then false else s.status.done
        werr := if v.getLsbD 8 then false else s.status.werr } }) ∧
    (off ≠ 0x08 → s.status.busy = true →
      step s = .next { s with events := rest, status := { s.status with werr := true } }) ∧
    (off = 0x04 → s.status.busy = false → ∃ k : Work, step s = .next { s with
      events := rest
      oplatch := v
      status := { busy := true, done := false, err := 0, werr := s.status.werr }
      work := k }) ∧
    (s.status.busy = false → ∀ r ∈ writableRegs, off = regOffset r →
      ∃ t : State, step s = .next t ∧ readReg t r = v &&& implementedBits r ∧
        (∀ r' : Reg, r' ≠ r → readReg t r' = readReg s r') ∧ t.results = s.results ∧ t.status = s.status ∧
        t.oplatch = s.oplatch ∧ t.work = s.work ∧ t.rdata = s.rdata ∧ t.events = rest) ∧
    (s.status.busy = false → off ≠ 0x08 → off ≠ 0x04 → (∀ r ∈ writableRegs, off ≠ regOffset r) →
      step s = .next { s with events := rest })

/-- 10_state.md R29: the bits of STATUS as a word. -/
def Obligations.StatusWordHoldsItsFields : Prop :=
  ∀ t : Status, (statusWord t).toNat = t.busy.toNat + 2 * t.done.toNat + 16 * t.err.toNat + 256 * t.werr.toNat

/-- 20_memory.md R64, R61: a request the port cannot make stops the model by name. The split into a fault and a refusal is the
model's (log entry 9). -/
def Obligations.OnlyWholeAlignedWordsAreServed : Prop :=
  ∀ (s : State) (off size : Nat) (v : Word) (rest : List Event) (e : Event),
    (e = .read off size ∨ e = .write off size v) → s.events = e :: rest →
    (0x100 ≤ off → step s = .fault (.outsideWindow off)) ∧
    (off < 0x100 → (size ≠ 4 ∨ off % 4 ≠ 0) → step s = .refused (.notAWordAccess off size)) ∧
    (off < 0x100 → size = 4 → off % 4 = 0 → ∃ t, step s = .next t)

/-- 20_memory.md R69: a byte-addressed platform sees a register's word little-endian. -/
def Obligations.WindowBytesAreLittleEndian : Prop :=
  ∀ (s : State) (r : Reg), readReg s r =
    windowByte s (regOffset r + 3) ++ windowByte s (regOffset r + 2) ++ windowByte s (regOffset r + 1) ++
      windowByte s (regOffset r)

/-! ## Encoding and the life of a command -/

/-- 30_encoding.md R92, R93. -/
def Obligations.EveryWordIsOneCommandOrIllegal : Prop :=
  ∀ w : Word,
    (decode w = .ok .modinv ↔ w = 0x00000001#32) ∧ (decode w = .ok .padd ↔ w = 0x00000002#32) ∧
    (decode w = .ok .pdbl ↔ w = 0x00000003#32) ∧ (decode w = .ok .smul ↔ w = 0x00000004#32) ∧
    (decode w = .ok .oncurve ↔ w = 0x00000005#32) ∧ (decode w = .ok .affenc ↔ w = 0x00000006#32) ∧
    (decode w = .ok .affdec ↔ w = 0x00000007#32) ∧
    (decode w = .error (.illegalCmd w) ↔ (w.toNat = 0 ∨ 8 ≤ w.toNat))

/-- 30_encoding.md R92, 20_memory.md R69: decoding the bytes of a command gives it back with the bytes after it, and bytes that
decode are the bytes of what they decode to. -/
def Obligations.CommandBytesDecodeBack : Prop :=
  ∀ (i : Instr) (rest bs : List Byte), i.wf = true →
    (decodeBytes (encodeBytes i ++ rest) = .ok (i, rest)) ∧ (decodeBytes bs = .ok (i, rest) → bs = encodeBytes i ++ rest)

/-- 30_encoding.md R92: words written out bit by bit. -/
def Obligations.WrittenOutWordsDecode : Prop :=
  decode 0b00000000000000000000000000000001#32 = .ok .modinv ∧
  decode 0b00000000000000000000000000000010#32 = .ok .padd ∧
  decode 0b00000000000000000000000000000011#32 = .ok .pdbl ∧
  decode 0b00000000000000000000000000000100#32 = .ok .smul ∧
  decode 0b00000000000000000000000000000101#32 = .ok .oncurve ∧
  decode 0b00000000000000000000000000000110#32 = .ok .affenc ∧
  decode 0b00000000000000000000000000000111#32 = .ok .affdec

/-- 30_encoding.md R95: an issue, and the same write made while busy. The working values an issue starts with are another
statement's (`WorkingValuesTrackTheOperands`). -/
def Obligations.IssueSetsBusyAndLatchesTheWord : Prop :=
  ∀ (s : State) (w : Word) (rest : List Event), s.events = .write 0x04 4 w :: rest →
    (s.status.busy = false → ∃ (t : State) (k : Work), step s = .next t ∧ irq t = false ∧
      t = { s with
        events := rest
        oplatch := w
        status := { busy := true, done := false, err := 0, werr := s.status.werr }
        work := k }) ∧
    (s.status.busy = true → step s = .next { s with events := rest, status := { s.status with werr := true } })

/-- 30_encoding.md R96, R98: when the completion is next and OPLATCH decodes to a command, the step is `exec` of that command,
with the event used up. -/
def Obligations.CompletionRunsTheCommandInFlight : Prop :=
  ∀ (s : State) (rest : List Event) (i : Instr), CompletionNext s rest → decode s.oplatch = .ok i →
    step s = exec i { s with events := rest }

/-- The word that `withFetchWord` issues is the one the very next step runs (log entry 10). -/
def Obligations.FetchedWordRunsNext : Prop :=
  ∀ (s : State) (w : Nat) (i : Instr), decodeTableWord 32 w = some i →
    step (s.withFetchWord 32 w) = exec i (issue (BitVec.ofNat 32 w) s)

/-- 60_exceptions.md R225, 30_encoding.md R93. -/
def Obligations.IllegalWordEndsWithIllegalCmd : Prop :=
  (∀ (s : State) (rest : List Event), CompletionNext s rest → (s.oplatch.toNat = 0 ∨ 8 ≤ s.oplatch.toNat) →
    step s = .next (endsErr { s with events := rest } 4)) ∧
  (∀ (s t : State) (rest : List Event), CompletionNext s rest → step s = .next t →
    (t.status.err = 4 ↔ (s.oplatch.toNat = 0 ∨ 8 ≤ s.oplatch.toNat)))

/-- 30_encoding.md R96: "No completion happens while BUSY = 0." Nor does any work of the engine (log entry 6). -/
def Obligations.IdleBlockKeepsItsState : Prop :=
  ∀ s : State, s.status.busy = false →
    (s.events = [] → step s = .next s) ∧
    (∀ rest, (s.events = .completion :: rest ∨ s.events = .work :: rest) → step s = .next { s with events := rest })

/-- 60_exceptions.md R228, 30_encoding.md R96: every completion is one of these, and an error writes STATUS alone. -/
def Obligations.FailedCommandChangesOnlyStatus : Prop :=
  (∀ (i : Instr) (s : State), (∃ r0 r1 rinf, exec i s = .next (endsOk s r0 r1 rinf)) ∨
    (∃ code : BitVec 4, code ≠ 0 ∧ exec i s = .next (endsErr s code))) ∧
  (∀ (s t : State) (rest : List Event), CompletionNext s rest → step s = .next t → t.status.err ≠ 0 →
    t = endsErr { s with events := rest } t.status.err)

/-! ## MODINV -/

/-- 40_modinv.md R122. -/
def Obligations.ModinvGivesTheUniqueInverse : Prop :=
  decode 0x00000001#32 = .ok .modinv ∧
  ∀ s : State,
    (s.operands.mod = 0 → exec .modinv s = .next (endsErr s 3)) ∧
    (s.operands.mod ≠ 0 → Int.gcd s.operands.val.toInt s.operands.mod.toNat ≠ 1 → exec .modinv s = .next (endsErr s 1)) ∧
    (s.operands.mod ≠ 0 → Int.gcd s.operands.val.toInt s.operands.mod.toNat = 1 →
      ∃ i : Nat, IsInverse s.operands.val.toInt s.operands.mod.toNat i ∧
        (∀ j : Nat, IsInverse s.operands.val.toInt s.operands.mod.toNat j → j = i) ∧
        exec .modinv s = .next (endsOk s (BitVec.ofNat 32 i) 0 0))

/-- 40_modinv.md R123: two values with one residue give one outcome, whatever else differs. -/
def Obligations.ModinvUsesOnlyTheResidue : Prop :=
  (∀ (v : Int) (m : Nat), 0 < m → modInv v m = modInv (modulo v m) m) ∧
  ∀ s s' : State, s.operands.mod = s'.operands.mod → s.operands.mod ≠ 0 →
    s.operands.val.toInt % s.operands.mod.toNat = s'.operands.val.toInt % s.operands.mod.toNat →
    ∃ t t' : State, exec .modinv s = .next t ∧ exec .modinv s' = .next t' ∧ t.status.err = t'.status.err ∧
      (t.status.err = 0 → t.results = t'.results)

/-- 40_modinv.md R124, R125. -/
def Obligations.ModinvCornerCases : Prop :=
  ∀ (s : State) (m : Nat), s.operands.mod.toNat = m →
    (m = 1 → exec .modinv s = .next (endsOk s 0 0 0)) ∧
    (2 ≤ m → s.operands.val.toInt % m = 0 → exec .modinv s = .next (endsErr s 1)) ∧
    (2 ≤ m → s.operands.val.toInt % m = 1 → exec .modinv s = .next (endsOk s 1 0 0)) ∧
    (2 ≤ m → s.operands.val.toInt % m = m - 1 → exec .modinv s = .next (endsOk s (BitVec.ofNat 32 (m - 1)) 0 0)) ∧
    (m = 2 → s.operands.val.toInt % 2 = 1 → exec .modinv s = .next (endsOk s 1 0 0)) ∧
    (m = 2 → s.operands.val.toInt % 2 = 0 → exec .modinv s = .next (endsErr s 1))

/-- 40_modinv.md R126, 10_state.md R31: rounds on the working values of a MODINV reach the result its completion commits. -/
def Obligations.ModinvWorkingValuesReachTheResult : Prop :=
  ∀ (s : State) (n : Nat) (e : Euclid), s.operands.mod ≠ 0 →
    (workRounds n 0x00000001#32 s.operands (workStart 0x00000001#32 s.operands)).euclid = e → e.r1 = 0 →
    (e.r0 = 1 → exec .modinv s = .next (endsOk s (residueWord e.t0 s.operands.mod.toNat) 0 0)) ∧
    (e.r0 ≠ 1 → exec .modinv s = .next (endsErr s 1))

/-- 40_modinv.md R126: "fewer than 50 for `m < 2^32`" rounds. R126 speaks of `m ≥ 1`. That the rounds show on the working values, one
by one, and that the working values are 0 when MOD = 0, so that no round is needed there, is the model's choice and no rule of the
spec (log entry 6). -/
def Obligations.ModinvTakesFewerThanFiftyRounds : Prop :=
  ∀ o : Operands, ∃ n : Nat, n < 50 ∧ (workRounds n 0x00000001#32 o (workStart 0x00000001#32 o)).euclid.r1 = 0

/-! ## AFFENC and AFFDEC -/

/-- 41_affine.md R142, R141; 30_encoding.md R105. -/
def Obligations.AffencMapsLettersAndPassesOthers : Prop :=
  decode 0x00000006#32 = .ok .affenc ∧
  ∀ (s : State) (c : Nat), s.operands.chr.toNat = c →
    (0x41 ≤ c → c ≤ 0x5A → exec .affenc s = .next (endsOk s
      (BitVec.ofNat 32 (0x41 + ((s.operands.afa.toInt * ((c : Int) - 0x41) + s.operands.afb.toInt) % 26).toNat)) 0 0)) ∧
    (0x61 ≤ c → c ≤ 0x7A → exec .affenc s = .next (endsOk s
      (BitVec.ofNat 32 (0x41 + ((s.operands.afa.toInt * ((c : Int) - 0x61) + s.operands.afb.toInt) % 26).toNat)) 0 0)) ∧
    (¬ (0x41 ≤ c ∧ c ≤ 0x5A) → ¬ (0x61 ≤ c ∧ c ≤ 0x7A) → exec .affenc s = .next (endsOk s (BitVec.ofNat 32 c) 0 0))

/-- 41_affine.md R146, R145; 30_encoding.md R105. -/
def Obligations.AffdecInvertsTheMapOrHasNoInverse : Prop :=
  decode 0x00000007#32 = .ok .affdec ∧
  ∀ (s : State) (c : Nat), s.operands.chr.toNat = c →
    (Int.gcd s.operands.afa.toInt 26 ≠ 1 → exec .affdec s = .next (endsErr s 1)) ∧
    (Int.gcd s.operands.afa.toInt 26 = 1 → ∃ ainv : Nat, IsInverse s.operands.afa.toInt 26 ainv ∧
      (0x41 ≤ c → c ≤ 0x5A → exec .affdec s = .next (endsOk s
        (BitVec.ofNat 32 (0x41 + (((ainv : Int) * ((c : Int) - 0x41 - s.operands.afb.toInt)) % 26).toNat)) 0 0)) ∧
      (0x61 ≤ c → c ≤ 0x7A → exec .affdec s = .next (endsOk s
        (BitVec.ofNat 32 (0x41 + (((ainv : Int) * ((c : Int) - 0x61 - s.operands.afb.toInt)) % 26).toNat)) 0 0)) ∧
      (¬ (0x41 ≤ c ∧ c ≤ 0x5A) → ¬ (0x61 ≤ c ∧ c ≤ 0x7A) → exec .affdec s = .next (endsOk s (BitVec.ofNat 32 c) 0 0)))

/-- 41_affine.md R147, one character: decrypting what AFFENC gave returns the upper case of the letter, and every non-letter
returns itself; and the twelve invertible residues with their inverses. -/
def Obligations.AffineRoundTripGivesUpperCase : Prop :=
  (∀ s : State, Int.gcd s.operands.afa.toInt 26 = 1 →
    ∃ t : State, exec .affenc s = .next t ∧ t.status.err = 0 ∧
      ∀ s' : State, s'.operands = { t.operands with chr := t.results.res0.setWidth 8 } →
        exec .affdec s' = .next (endsOk s' (BitVec.ofNat 32 (upperCode s.operands.chr.toNat)) 0 0)) ∧
  (∀ a : Int, Int.gcd a 26 = 1 ↔ a % 26 ∈ ([1, 3, 5, 7, 9, 11, 15, 17, 19, 21, 23, 25] : List Int)) ∧
  (∀ x ∈ ([(1, 1), (3, 9), (5, 21), (7, 15), (9, 3), (11, 19), (15, 7), (17, 23), (19, 11), (21, 5), (23, 17), (25, 25)] :
      List (Int × Nat)), ∀ a : Int, a % 26 = x.1 → modInv a 26 = .ok x.2)

/-- 44_host_sequences.md R214, 41_affine.md R147: a whole text, encrypted and decrypted character by character. The number of
STATUS reads a WAIT takes is any number (log entry 13). -/
def Obligations.TextRoundTripGivesUpperCase : Prop :=
  ∀ (s : State) (a b : Word) (text : List Byte) (polls polls' : Nat → Nat), s.status.busy = false → Int.gcd a.toInt 26 = 1 →
    ∃ (enc dec : List Word) (t u : State), transform .affenc a b text polls s = .next (enc, 0, t) ∧
      enc.length = text.length ∧ transform .affdec a b (enc.map (fun w => w.setWidth 8)) polls' t = .next (dec, 0, u) ∧
      dec = text.map (fun c => BitVec.ofNat 32 (upperCode c.toNat))

/-! ## ONCURVE, PADD, PDBL -/

/-- 42_ecc_point.md R162, R161. -/
def Obligations.OncurveTestsTheCongruence : Prop :=
  decode 0x00000005#32 = .ok .oncurve ∧
  ∀ s : State,
    (s.operands.mod = 0 → exec .oncurve s = .next (endsErr s 3)) ∧
    (s.operands.mod ≠ 0 → P1OnCurve s.operands → exec .oncurve s = .next (endsOk s 1 0 0)) ∧
    (s.operands.mod ≠ 0 → ¬ P1OnCurve s.operands → exec .oncurve s = .next (endsOk s 0 0 0))

/-- 42_ecc_point.md R170, R164 (1): an operand `Inf` gives the other operand as it is, unreduced. -/
def Obligations.PaddIdentityReturnsTheOtherOperand : Prop :=
  ∀ s : State, PaddReady s →
    (inf1 s.operands → inf2 s.operands → exec .padd s = .next (endsOk s 0 0 1)) ∧
    (inf1 s.operands → ¬ inf2 s.operands → exec .padd s = .next (endsOk s s.operands.x2 s.operands.y2 0)) ∧
    (¬ inf1 s.operands → inf2 s.operands → exec .padd s = .next (endsOk s s.operands.x1 s.operands.y1 0))

/-- 42_ecc_point.md R164 (2), R171: equal `x` and different `y`, or equal `x` and `y1 = 0`, compared as integers. -/
def Obligations.PaddOfInversePointsIsInf : Prop :=
  ∀ s : State, PaddReady s → ¬ inf1 s.operands → ¬ inf2 s.operands → s.operands.x1 = s.operands.x2 →
    (s.operands.y1 ≠ s.operands.y2 ∨ s.operands.y1 = 0) → exec .padd s = .next (endsOk s 0 0 1)

/-- 42_ecc_point.md R164 (4), (5) and R174: the chord, or NO_INVERSE. -/
def Obligations.PaddOfDistinctXFollowsTheChord : Prop :=
  ∀ (s : State) (x1 y1 x2 y2 : Int) (p : Nat), PaddReady s → ¬ inf1 s.operands → ¬ inf2 s.operands →
    s.operands.x1 ≠ s.operands.x2 → x1 = s.operands.x1.toNat → y1 = s.operands.y1.toNat → x2 = s.operands.x2.toNat →
    y2 = s.operands.y2.toNat → p = s.operands.mod.toNat →
    (Int.gcd (x2 - x1) p ≠ 1 → exec .padd s = .next (endsErr s 1)) ∧
    (Int.gcd (x2 - x1) p = 1 → ∃ (i : Nat) (m : Int), IsInverse (x2 - x1) p i ∧ m = ((y2 - y1) * i) % p ∧
      exec .padd s = .next (endsOk s (residueWord (slopeX m x1 x2 p) p) (residueWord (slopeY m x1 y1 x2 p) p) 0))

/-- 42_ecc_point.md R164 (3), (5) and R174: equal points with `y ≠ 0`. -/
def Obligations.PaddOfEqualPointsFollowsTheTangent : Prop :=
  ∀ (s : State) (x1 y1 a : Int) (p : Nat), PaddReady s → ¬ inf1 s.operands → ¬ inf2 s.operands →
    s.operands.x1 = s.operands.x2 → s.operands.y1 = s.operands.y2 → s.operands.y1 ≠ 0 →
    x1 = s.operands.x1.toNat → y1 = s.operands.y1.toNat → a = s.operands.ca.toInt → p = s.operands.mod.toNat →
    (Int.gcd (2 * y1) p ≠ 1 → exec .padd s = .next (endsErr s 1)) ∧
    (Int.gcd (2 * y1) p = 1 → ∃ (i : Nat) (m : Int), IsInverse (2 * y1) p i ∧ m = ((3 * x1 ^ 2 + a) * i) % p ∧
      exec .padd s = .next (endsOk s (residueWord (slopeX m x1 x1 p) p) (residueWord (slopeY m x1 y1 x1 p) p) 0))

/-- 42_ecc_point.md R172, R165. -/
def Obligations.PdblDoublesThePoint : Prop :=
  ∀ (s : State) (x1 y1 a : Int) (p : Nat), x1 = s.operands.x1.toNat → y1 = s.operands.y1.toNat → a = s.operands.ca.toInt →
    p = s.operands.mod.toNat →
    (p = 0 → exec .pdbl s = .next (endsErr s 3)) ∧
    (p ≠ 0 → PchkOn s → ¬ P1OnCurve s.operands → exec .pdbl s = .next (endsErr s 2)) ∧
    (OnePointReady s → (inf1 s.operands ∨ y1 = 0) → exec .pdbl s = .next (endsOk s 0 0 1)) ∧
    (OnePointReady s → ¬ inf1 s.operands → y1 ≠ 0 → Int.gcd (2 * y1) p ≠ 1 → exec .pdbl s = .next (endsErr s 1)) ∧
    (OnePointReady s → ¬ inf1 s.operands → y1 ≠ 0 → Int.gcd (2 * y1) p = 1 →
      ∃ (i : Nat) (m : Int), IsInverse (2 * y1) p i ∧ m = ((3 * x1 ^ 2 + a) * i) % p ∧
        exec .pdbl s = .next (endsOk s (residueWord (slopeX m x1 x1 p) p) (residueWord (slopeY m x1 y1 x1 p) p) 0))

/-- 42_ecc_point.md R172: "PDBL gives exactly what PADD gives with P2 set equal to P1". -/
def Obligations.PdblIsPaddOfThePointWithItself : Prop :=
  ∀ s s' : State, s'.ctrl = s.ctrl → s'.operands.mod = s.operands.mod → s'.operands.ca = s.operands.ca →
    s'.operands.cb = s.operands.cb → s'.operands.x1 = s.operands.x1 → s'.operands.y1 = s.operands.y1 →
    s'.operands.x2 = s.operands.x1 → s'.operands.y2 = s.operands.y1 → (inf1 s'.operands ↔ inf1 s.operands) →
    (inf2 s'.operands ↔ inf1 s.operands) →
    ∃ t t' : State, exec .pdbl s = .next t ∧ exec .padd s' = .next t' ∧ t.status.err = t'.status.err ∧
      (t.status.err = 0 → t.results = t'.results)

/-- 42_ecc_point.md R176: swapping P1 and P2 gives the same RES0, RES1 and RINF. The rule promises it for valid curves and points
on them; in the model it holds for every content of the registers, errors included, which is more than the rule says. -/
def Obligations.PaddCommutes : Prop :=
  ∀ s s' : State, s'.ctrl = s.ctrl → s'.operands.mod = s.operands.mod → s'.operands.ca = s.operands.ca →
    s'.operands.cb = s.operands.cb → s'.operands.x1 = s.operands.x2 → s'.operands.y1 = s.operands.y2 →
    s'.operands.x2 = s.operands.x1 → s'.operands.y2 = s.operands.y1 → (inf1 s'.operands ↔ inf2 s.operands) →
    (inf2 s'.operands ↔ inf1 s.operands) →
    ∃ t t' : State, exec .padd s = .next t ∧ exec .padd s' = .next t' ∧ t.status.err = t'.status.err ∧
      (t.status.err = 0 → t.results = t'.results)

/-- 42_ecc_point.md R176: on a prime field the sum of two points of the curve exists and is a point of the curve: ONCURVE of the
result gives 1. -/
def Obligations.PaddResultIsOnTheCurve : Prop :=
  ∀ s : State, s.operands.mod.toNat.Prime → 2 < s.operands.mod.toNat → P1OnCurve s.operands → P2OnCurve s.operands →
    P1Reduced s.operands → P2Reduced s.operands →
    ∃ t : State, exec .padd s = .next t ∧ t.status.err = 0 ∧
      ∀ s' : State, s'.operands = resultToP1 t.operands t.results →
        P1Reduced s'.operands ∧ exec .oncurve s' = .next (endsOk s' 1 0 0)

/-- 42_ecc_point.md R174: for a prime modulus above 2 and reduced coordinates, on the curve or not, no needed inverse is missing. -/
def Obligations.PrimeModulusNeverLacksAnInverse : Prop :=
  ∀ (s t : State) (i : Instr), s.operands.mod.toNat.Prime → 2 < s.operands.mod.toNat → P1Reduced s.operands →
    (i = .padd ∧ P2Reduced s.operands ∨ i = .pdbl ∨ i = .smul) → exec i s = .next t → t.status.err ≠ 1

/-! ## SMUL -/

/-- 43_ecc_smul.md R192, R190: SMUL commits what the loop ends with, and the loop always ends. -/
def Obligations.SmulCommitsTheDoubleAndAddLoop : Prop :=
  decode 0x00000004#32 = .ok .smul ∧
  ∀ s : State,
    (s.operands.mod = 0 → exec .smul s = .next (endsErr s 3)) ∧
    (s.operands.mod ≠ 0 → PchkOn s → ¬ P1OnCurve s.operands → exec .smul s = .next (endsErr s 2)) ∧
    (OnePointReady s → ∃ out : Option Point,
      DoubleAndAdd s.operands.ca.toInt s.operands.mod.toNat s.operands.k.toNat .inf (point1 s.operands) out ∧
      (out = none → exec .smul s = .next (endsErr s 1)) ∧
      (out = some .inf → exec .smul s = .next (endsOk s 0 0 1)) ∧
      (∀ x y : Nat, out = some (.aff x y) → x < 2 ^ 32 ∧ y < 2 ^ 32 ∧
        exec .smul s = .next (endsOk s (BitVec.ofNat 32 x) (BitVec.ofNat 32 y) 0)))

/-- 43_ecc_smul.md R193: K = 0, P1 = Inf, and K = 1 with its discarded doubling. -/
def Obligations.SmulOfZeroOneAndInfinity : Prop :=
  ∀ s : State, OnePointReady s →
    (s.operands.k = 0 → exec .smul s = .next (endsOk s 0 0 1)) ∧
    (inf1 s.operands → exec .smul s = .next (endsOk s 0 0 1)) ∧
    (s.operands.k = 1 → ¬ inf1 s.operands →
      (s.operands.y1 = 0 ∨ Int.gcd (2 * (s.operands.y1.toNat : Int)) s.operands.mod.toNat = 1) →
      exec .smul s = .next (endsOk s s.operands.x1 s.operands.y1 0)) ∧
    (s.operands.k = 1 → ¬ inf1 s.operands → s.operands.y1 ≠ 0 →
      Int.gcd (2 * (s.operands.y1.toNat : Int)) s.operands.mod.toNat ≠ 1 → exec .smul s = .next (endsErr s 1))

/-- 10_state.md R31, 43_ecc_smul.md R190: the engine that works round by round on its hidden values ends with the result that the
completion computes from the operand registers. -/
def Obligations.SmulWorkingValuesReachTheResult : Prop :=
  ∀ (s : State) (n : Nat) (r : Scalar), OnePointReady s →
    (workRounds n 0x00000004#32 s.operands (workStart 0x00000004#32 s.operands)).scalar = r → r.k = 0 →
    (r.result = .inf → exec .smul s = .next (endsOk s 0 0 1)) ∧
    (∀ x y : Nat, r.result = .aff x y → exec .smul s = .next (endsOk s (BitVec.ofNat 32 x) (BitVec.ofNat 32 y) 0))

/-- 43_ecc_smul.md R196: `(j + k)·P = j·P + k·P`, as two SMUL, one PADD and a third SMUL, on a prime field, a non-singular curve and
a reduced point of it. -/
def Obligations.SmulIsAdditiveInTheScalar : Prop :=
  ∀ (s : State) (j k : Word), PrimeCurve s.operands → P1OnCurve s.operands → P1Reduced s.operands →
    j.toNat + k.toNat < 2 ^ 32 →
    ∃ tj tk tjk u : State,
      exec .smul { s with operands := { s.operands with k := j } } = .next tj ∧ tj.status.err = 0 ∧
      exec .smul { s with operands := { s.operands with k := k } } = .next tk ∧ tk.status.err = 0 ∧
      exec .smul { s with operands := { s.operands with k := j + k } } = .next tjk ∧ tjk.status.err = 0 ∧
      exec .padd { s with operands := resultToP2 (resultToP1 s.operands tj.results) tk.results } = .next u ∧
      u.status.err = 0 ∧ u.results = tjk.results

/-- 44_host_sequences.md R212: both participants of a key exchange derive one shared point, on a prime field, a non-singular curve
and a reduced base point of it. -/
def Obligations.KeyExchangeSecretsAgree : Prop :=
  ∀ (s : State) (d e : Word), PrimeCurve s.operands → P1OnCurve s.operands → P1Reduced s.operands →
    ∃ qd qe sd se : State,
      exec .smul { s with operands := { s.operands with k := d } } = .next qd ∧ qd.status.err = 0 ∧
      exec .smul { s with operands := { s.operands with k := e } } = .next qe ∧ qe.status.err = 0 ∧
      exec .smul { s with operands := { resultToP1 s.operands qe.results with k := d } } = .next sd ∧ sd.status.err = 0 ∧
      exec .smul { s with operands := { resultToP1 s.operands qd.results with k := e } } = .next se ∧ se.status.err = 0 ∧
      sd.results = se.results

/-! ## Errors -/

/-- 60_exceptions.md R224. -/
def Obligations.BadModulusIsTestedFirst : Prop :=
  (∀ (i : Instr) (s : State), i ∈ [Instr.modinv, .oncurve, .padd, .pdbl, .smul] → s.operands.mod = 0 →
    exec i s = .next (endsErr s 3)) ∧
  (∀ (i : Instr) (s t : State), exec i s = .next t → t.status.err = 3 →
    i ∈ [Instr.modinv, .oncurve, .padd, .pdbl, .smul] ∧ s.operands.mod = 0)

/-- 60_exceptions.md R223, 42_ecc_point.md R166, R167. -/
def Obligations.InvalidPointNeedsThePointCheck : Prop :=
  ∀ (i : Instr) (s t : State), exec i s = .next t →
    (t.status.err = 2 ↔ s.operands.mod ≠ 0 ∧ PchkOn s ∧
      ((i = .padd ∧ (¬ P1OnCurve s.operands ∨ ¬ P2OnCurve s.operands)) ∨
        ((i = .pdbl ∨ i = .smul) ∧ ¬ P1OnCurve s.operands)))

/-- 60_exceptions.md R221: the table of errors per command. -/
def Obligations.EachCommandEndsOnlyWithItsErrors : Prop :=
  ∀ (i : Instr) (s t : State), exec i s = .next t → t.status.err ≠ 0 →
    match i with
    | .modinv => t.status.err = 1 ∨ t.status.err = 3
    | .affenc => False
    | .affdec => t.status.err = 1
    | .oncurve => t.status.err = 3
    | .padd | .pdbl | .smul => t.status.err = 1 ∨ (t.status.err = 2 ∧ PchkOn s) ∨ t.status.err = 3

/-! ## The whole block -/

/-- 30_encoding.md R99: no other value of STATUS is reachable. -/
def Obligations.StatusTakesOnlyItsListedValues : Prop :=
  StatusListed State.reset ∧ ∀ s t : State, StatusListed s → step s = .next t → StatusListed t

/-- 30_encoding.md R104, 10_state.md R26: a result `Inf` stands with RES0 = RES1 = 0, kept by every step. -/
def Obligations.InfinityResultKeepsZeroCoordinates : Prop :=
  ∀ s t : State, ResultsCanonical s → step s = .next t → ResultsCanonical t

/-- 10_state.md R31, R38: while a command runs, the working values are rounds on from its issue on the operands as they stand,
because the busy lock keeps the operands; kept by every step. -/
def Obligations.WorkingValuesTrackTheOperands : Prop :=
  ∀ s t : State, WorkTracksOperands s → step s = .next t → WorkTracksOperands t

/-- 10_state.md R35: the invariants about the block hold after reset. That `RequestsWellFormed` holds is the model's choice and no
rule of the spec: it is about the model's own list of events, which the model has empty at reset (log entry 2). -/
def Obligations.InvariantsHoldAtReset : Prop :=
  StatusListed State.reset ∧ ResultsCanonical State.reset ∧ WorkTracksOperands State.reset ∧ RequestsWellFormed State.reset

/-- 10_state.md R34, R22, R38: an operand register or CTRL changes only by a host write of it made while idle, or by reset. -/
def Obligations.OperandsChangeOnlyByAnIdleHostWrite : Prop :=
  ∀ (s t : State) (r : Reg), r ∈ writableRegs → step s = .next t → readReg t r ≠ readReg s r →
    (s.status.busy = false ∧ ∃ (v : Word) (rest : List Event), s.events = .write (regOffset r) 4 v :: rest) ∨
    ∃ rest, s.events = .reset :: rest

/-- 10_state.md R26, R34: the result registers change only by a completion without error, or by reset. -/
def Obligations.ResultsChangeOnlyAtASuccessfulCompletion : Prop :=
  ∀ s t : State, step s = .next t → t.results ≠ s.results →
    (t.status.err = 0 ∧ t.status.done = true ∧ ∃ rest, CompletionNext s rest) ∨ ∃ rest, s.events = .reset :: rest

/-- 00_scope.md R17, 10_state.md R37, 30_encoding.md R104: the outcome depends on the registers the command reads and on nothing
else: not on earlier results, not on STATUS, not on the working values. -/
def Obligations.OutcomeDependsOnlyOnTheCommandsOperands : Prop :=
  ∀ (i : Instr) (s s' : State), commandView i s = commandView i s' →
    ∃ t t' : State, exec i s = .next t ∧ exec i s' = .next t' ∧ t.status.err = t'.status.err ∧
      (t.status.err = 0 → t.results = t'.results)

/-- 10_state.md R36, 60_exceptions.md R232: `irq` is `CTRL.IE and STATUS.DONE` at every instant; a completion raises it when IE is
set, an `ACK` and an issue lower it, and setting IE while DONE = 1 raises it at once. -/
def Obligations.IrqIsIeAndDone : Prop :=
  ∀ s : State,
    irq s = ((windowRead s 0x00).getLsbD 0 && (windowRead s 0x08).getLsbD 1) ∧ irq State.reset = false ∧
    (∀ (rest : List Event) (t : State), CompletionNext s rest → step s = .next t → irq t = (windowRead s 0x00).getLsbD 0) ∧
    (∀ (v : Word) (rest : List Event) (t : State), s.events = .write 0x08 4 v :: rest → step s = .next t →
      v.getLsbD 1 = true → irq t = false) ∧
    (∀ (v : Word) (rest : List Event) (t : State), s.events = .write 0x04 4 v :: rest → s.status.busy = false →
      step s = .next t → irq t = false) ∧
    (∀ (v : Word) (rest : List Event) (t : State), s.events = .write 0x00 4 v :: rest → s.status.busy = false →
      s.status.done = true → v.getLsbD 0 = true → step s = .next t → irq t = true)

/-- 60_exceptions.md R236, 93_implementation_defined.md part 2: with requests the port can make, no step stops. -/
def Obligations.WellFormedRequestsNeverStop : Prop :=
  ∀ s : State, RequestsWellFormed s → ∃ t : State, step s = .next t ∧ RequestsWellFormed t

/-- 70_reset_and_hazards.md R266, 60_exceptions.md R236: a command in flight has ended after at most one step more than there are
events to come. That an unscheduled completion comes last is the model's choice (log entry 3). -/
def Obligations.EveryCommandEnds : Prop :=
  ∀ s : State, RequestsWellFormed s → s.status.busy = true →
    ∃ (n : Nat) (t : State), n ≤ s.events.length + 1 ∧ Sys2Proof.core.run n s = .next t ∧ t.status.busy = false

/-- 20_memory.md R73: a host transaction and a completion on one clock edge: the transaction first, on the busy state. -/
def Obligations.HostAccessComesBeforeTheCompletionOfItsEdge : Prop :=
  ∀ (p : Pins) (s : State), p.rst = false → p.req = true → p.due = true → s.status.busy = true →
    (p.we = false → (pinsOut p s).rdata = some (windowRead s (4 * p.idx.toNat)) ∧
      clockEdge p s = completion { s with rdata := windowRead s (4 * p.idx.toNat) }) ∧
    (p.we = true → p.idx ≠ 2#6 → clockEdge p s = completion { s with status := { s.status with werr := true } }) ∧
    (p.we = true → p.idx = 2#6 → clockEdge p s = completion { s with
      status := { s.status with
        done := if p.wdata.getLsbD 1 then false else s.status.done
        werr := if p.wdata.getLsbD 8 then false else s.status.werr } })

/-- 00_scope.md R18, 70_reset_and_hazards.md R266: reads and rounds of work between issue and completion change neither the
result nor STATUS, whatever their number: the end state is that of the shortest latency, but for the last value read and the
hidden working values. -/
def Obligations.LatencyDoesNotChangeTheOutcome : Prop :=
  ∀ (s : State) (es : List Event), s.status.busy = true →
    (∀ e ∈ es, e = .work ∨ ∃ off, e = .read off 4 ∧ off < 0x100 ∧ off % 4 = 0) →
    ∃ t t' : State, applyEvents (es ++ [.completion]) s = .next t ∧ completion s = .next t' ∧
      t = { t' with rdata := t.rdata, work := t.work }
end

