-- ==== Sys2Proof/Laws/Arith.lean ====
section
/-! SUPPORT. What `modulo` and `modInv` can answer, said once (00_scope.md R10, 40_modinv.md R121). -/

namespace Sys2Proof.Machine

theorem modulo_cast (v : Int) {m : Nat} (hm : 0 < m) : ((modulo v m : Nat) : Int) = v % m :=
  Int.toNat_of_nonneg (Int.emod_nonneg _ (by omega))

theorem modulo_lt (v : Int) {m : Nat} (hm : 0 < m) : modulo v m < m := by
  have h := Int.emod_lt_of_pos v (b := (m : Int)) (by omega)
  have := modulo_cast v hm
  omega

theorem modulo_congr {v w : Int} {m : Nat} (h : v % m = w % m) : modulo v m = modulo w m := by
  simp only [modulo, h]

theorem modulo_eq_iff {v : Int} {m r : Nat} (hm : 0 < m) : modulo v m = r ↔ r < m ∧ v % m = r % m := by
  have h := modulo_cast v hm
  constructor
  · rintro rfl
    exact ⟨modulo_lt v hm, by rw [h, Int.emod_emod_of_dvd _ (dvd_refl _)]⟩
  · rintro ⟨hr, hv⟩
    have : ((r : Int)) % m = r := Int.emod_eq_of_lt (by omega) (by omega)
    omega

@[simp] theorem modulo_one (v : Int) : modulo v 1 = 0 := by simp [modulo]

/-- One round keeps the gcd and takes the remainder (40_modinv.md R126). -/
theorem euclidRound_r1 (e : Euclid) : (euclidRound e).r1 = e.r0 % e.r1 := by
  simp only [euclidRound]
  have := Int.emod_add_mul_ediv e.r0 e.r1
  linarith [mul_comm e.r1 (e.r0 / e.r1)]

/-- The loop ends with the gcd in `r0` and a coefficient of `v` in `t0` (40_modinv.md R126), given fuel for the remainder. -/
theorem euclidRun_spec (v : Int) (m : Nat) : ∀ (fuel : Nat) (e : Euclid), 0 ≤ e.r0 → 0 ≤ e.r1 → e.r1.toNat ≤ fuel →
    (m : Int) ∣ e.t0 * v - e.r0 → (m : Int) ∣ e.t1 * v - e.r1 →
    (euclidRun fuel e).r1 = 0 ∧ (euclidRun fuel e).r0 = Int.gcd e.r0 e.r1 ∧
      (m : Int) ∣ (euclidRun fuel e).t0 * v - (euclidRun fuel e).r0 := by
  intro fuel
  induction fuel with
  | zero =>
    intro e h0 h1 hf d0 _
    have hz : e.r1 = 0 := by omega
    refine ⟨hz, ?_, d0⟩
    simp only [euclidRun, hz, Int.gcd_zero_right]
    omega
  | succ n ih =>
    intro e h0 h1 hf d0 d1
    by_cases hz : e.r1 = 0
    · simp only [euclidRun, hz, if_true, true_and, Int.gcd_zero_right]
      exact ⟨by omega, d0⟩
    · simp only [euclidRun, hz, if_false]
      have hr := euclidRound_r1 e
      have hpos : 0 < e.r1 := by omega
      have hlt := Int.emod_lt_of_pos e.r0 hpos
      have hnn := Int.emod_nonneg e.r0 hz
      have step := ih (euclidRound e) h1 (by rw [hr]; exact hnn) (by rw [hr]; omega) d1 (by
        obtain ⟨x, hx⟩ := d0
        obtain ⟨y, hy⟩ := d1
        refine ⟨x - e.r0 / e.r1 * y, ?_⟩
        simp only [euclidRound]
        linear_combination hx - (e.r0 / e.r1) * hy)
      refine ⟨step.1, ?_, step.2.2⟩
      rw [step.2.1, hr]
      show ((Int.gcd e.r1 (e.r0 % e.r1) : Nat) : Int) = _
      rw [Int.gcd_comm e.r1, Int.gcd_emod]

theorem gcd_modulo (v : Int) {m : Nat} (hm : 0 < m) : Int.gcd m (modulo v m : Int) = Int.gcd v m := by
  rw [modulo_cast v hm, Int.gcd_comm, Int.gcd_emod]

/-- `modInv` answers NoInverse exactly when the gcd is not 1, and then nothing else (40_modinv.md R121). -/
theorem modInv_error (v : Int) {m : Nat} (hm : 0 < m) (h : Int.gcd v m ≠ 1) : modInv v m = .error .noInverse := by
  have hs := euclidRun_spec v m m (euclidStart v m) (by simp [euclidStart]) (by simp [euclidStart])
    (by have := modulo_lt v hm; simp [euclidStart]; omega) (by simp [euclidStart]) (by
      simp only [euclidStart]
      rw [modulo_cast v hm, one_mul]
      exact Int.dvd_self_sub_emod)
  have hg := hs.2.1
  simp only [euclidStart, gcd_modulo v hm] at hg
  unfold modInv euclidResult
  rw [if_neg]
  intro hc
  apply h
  simp only [euclidStart] at hc
  omega

/-- With gcd 1 `modInv` answers the one inverse below the modulus (40_modinv.md R121). -/
theorem modInv_ok (v : Int) {m : Nat} (hm : 0 < m) (h : Int.gcd v m = 1) :
    ∃ i : Nat, modInv v m = .ok i ∧ i < m ∧ (v * i) % m = 1 % m := by
  have hs := euclidRun_spec v m m (euclidStart v m) (by simp [euclidStart]) (by simp [euclidStart])
    (by have := modulo_lt v hm; simp [euclidStart]; omega) (by simp [euclidStart]) (by
      simp only [euclidStart]
      rw [modulo_cast v hm, one_mul]
      exact Int.dvd_self_sub_emod)
  have hg := hs.2.1
  simp only [euclidStart, gcd_modulo v hm, h] at hg
  have hd := hs.2.2
  simp only [euclidStart, hg] at hd
  refine ⟨_, by unfold modInv euclidResult; rw [if_pos (by simpa [euclidStart] using hg)], modulo_lt _ hm, ?_⟩
  rw [modulo_cast _ hm]
  have hmul : v * ((euclidRun m (euclidStart v m)).t0 % m) % m = (v * (euclidRun m (euclidStart v m)).t0) % m := by
    rw [Int.mul_emod, Int.emod_emod_of_dvd _ (dvd_refl _), ← Int.mul_emod]
  rw [hmul]
  rw [mul_comm]
  refine Int.emod_eq_emod_iff_emod_sub_eq_zero.2 (Int.emod_eq_zero_of_dvd ?_)
  simpa [euclidStart] using hd

/-- A residue with product 1 shows that the gcd is 1. -/
theorem gcd_eq_one_of_inverse {v : Int} {m i : Nat} (h : (v * i) % m = 1 % m) : Int.gcd v m = 1 := by
  have hd : (m : Int) ∣ v * i - 1 :=
    Int.dvd_of_emod_eq_zero (Int.emod_eq_emod_iff_emod_sub_eq_zero.1 h)
  have h1 : ((Int.gcd v m : Nat) : Int) ∣ v * i := Dvd.dvd.mul_right (Int.gcd_dvd_left ..) _
  have h2 : ((Int.gcd v m : Nat) : Int) ∣ v * i - 1 := (Int.gcd_dvd_right ..).trans hd
  have h3 : ((Int.gcd v m : Nat) : Int) ∣ 1 := by
    have := dvd_sub h1 h2
    simpa using this
  have := Int.natAbs_dvd_natAbs.2 h3
  simpa using this

/-- The inverse is unique below the modulus (40_modinv.md R121). -/
theorem inverse_unique {v : Int} {m i j : Nat} (hi : i < m) (hj : j < m) (h1 : (v * i) % m = 1 % m)
    (h2 : (v * j) % m = 1 % m) : i = j := by
  have hg := gcd_eq_one_of_inverse h1
  have hd : (m : Int) ∣ v * i - v * j :=
    Int.dvd_of_emod_eq_zero (Int.emod_eq_emod_iff_emod_sub_eq_zero.1 (h1.trans h2.symm))
  rw [← mul_sub] at hd
  have hd' : (m : Int) ∣ (i : Int) - j :=
    Int.dvd_of_dvd_mul_right_of_gcd_one hd (by rw [Int.gcd_comm]; exact hg)
  have := Int.eq_zero_of_abs_lt_dvd hd' (by rw [abs_lt]; omega)
  omega

/-- What `modInv` answers, said once (40_modinv.md R121). -/
theorem modInv_eq_ok_iff {v : Int} {m i : Nat} (hm : 0 < m) : modInv v m = .ok i ↔ i < m ∧ (v * i) % m = 1 % m := by
  constructor
  · intro h
    by_cases hg : Int.gcd v m = 1
    · obtain ⟨j, hj, hlt, hmul⟩ := modInv_ok v hm hg
      rw [h] at hj
      cases hj
      exact ⟨hlt, hmul⟩
    · rw [modInv_error v hm hg] at h
      cases h
  · rintro ⟨hlt, hmul⟩
    obtain ⟨j, hj, hjlt, hjmul⟩ := modInv_ok v hm (gcd_eq_one_of_inverse hmul)
    rw [hj, inverse_unique hjlt hlt hjmul hmul]

theorem modInv_eq_error_iff {v : Int} {m : Nat} {e : Err} (hm : 0 < m) :
    modInv v m = .error e ↔ e = .noInverse ∧ Int.gcd v m ≠ 1 := by
  constructor
  · intro h
    by_cases hg : Int.gcd v m = 1
    · obtain ⟨j, hj, _, _⟩ := modInv_ok v hm hg
      rw [hj] at h
      cases h
    · rw [modInv_error v hm hg] at h
      cases h
      exact ⟨rfl, hg⟩
  · rintro ⟨rfl, hg⟩
    exact modInv_error v hm hg

/-- Only the residue of the value matters (40_modinv.md R123). -/
theorem modInv_congr {v w : Int} {m : Nat} (h : v % m = w % m) : modInv v m = modInv w m := by
  have : euclidStart v m = euclidStart w m := by simp only [euclidStart, modulo_congr h]
  simp only [modInv, this]

end Sys2Proof.Machine
end

