-- ==== Sys2Proof/Laws/Decode.lean ====
section
/-! SUPPORT. Decoding word by word. -/

namespace Sys2Proof

/-- Everything `decode` can answer: the seven words, and the rejection of every other word. -/
theorem decode_eq (w : Word) : decode w =
    if w = 1#32 then .ok .modinv else if w = 2#32 then .ok .padd else if w = 3#32 then .ok .pdbl
    else if w = 4#32 then .ok .smul else if w = 5#32 then .ok .oncurve else if w = 6#32 then .ok .affenc
    else if w = 7#32 then .ok .affdec else .error (.illegalCmd w) := by
  have full : ∀ p : Word, (w &&& 0xFFFFFFFF#32 == p) = decide (w = p) := by
    intro p
    have hw : w &&& 0xFFFFFFFF#32 = w := by
      rw [show (0xFFFFFFFF#32 : BitVec 32) = BitVec.allOnes 32 by decide, BitVec.and_allOnes]
    rw [hw]
    by_cases h : w = p <;> simp [h]
  by_cases h1 : w = 1#32
  · subst h1; rfl
  by_cases h2 : w = 2#32
  · subst h2; rfl
  by_cases h3 : w = 3#32
  · subst h3; rfl
  by_cases h4 : w = 4#32
  · subst h4; rfl
  by_cases h5 : w = 5#32
  · subst h5; rfl
  by_cases h6 : w = 6#32
  · subst h6; rfl
  by_cases h7 : w = 7#32
  · subst h7; rfl
  simp [decode, opcodeRows, OpcodeRow.selects, List.find?, full, h1, h2, h3, h4, h5, h6, h7]

@[simp] theorem decode_encode_eq (i : Instr) : decode (encode i) = .ok i := by cases i <;> rfl

/-- The bytes of a word, read back. -/
theorem wordOfBytes_bytes (w : Word) :
    wordOfBytes (byteOfWord w 0) (byteOfWord w 1) (byteOfWord w 2) (byteOfWord w 3) = w := by
  apply BitVec.eq_of_getLsbD_eq
  intro i hi
  simp only [wordOfBytes, byteOfWord, BitVec.getLsbD_append, BitVec.getLsbD_setWidth, BitVec.getLsbD_ushiftRight]
  by_cases h1 : i < 8
  · simp [h1]
  by_cases h2 : i - 8 < 8
  · simp only [h1, h2, decide_true, Bool.true_and, ↓reduceIte]
    congr 1; omega
  by_cases h3 : i - 8 - 8 < 8
  · simp only [h1, h2, h3, decide_true, Bool.true_and, ↓reduceIte]
    congr 1; omega
  · simp only [h1, h2, h3, ↓reduceIte]
    rw [decide_eq_true (by omega), Bool.true_and]
    congr 1; omega

/-- The word of four bytes, taken apart again. -/
theorem bytesOfWord_wordOfBytes (b0 b1 b2 b3 : Byte) : bytesOfWord (wordOfBytes b0 b1 b2 b3) = [b0, b1, b2, b3] := by
  simp only [bytesOfWord, byteOfWord, wordOfBytes, List.cons.injEq, and_true]
  refine ⟨?_, ?_, ?_, ?_⟩ <;> apply BitVec.eq_of_getLsbD_eq <;> intro k hk <;>
    simp only [BitVec.getLsbD_setWidth, BitVec.getLsbD_ushiftRight, BitVec.getLsbD_append, hk, decide_true, Bool.true_and]
  · rw [if_pos (by omega)]; congr 1; omega
  · rw [if_neg (by omega), if_pos (by omega)]; congr 1; omega
  · rw [if_neg (by omega), if_neg (by omega), if_pos (by omega)]; congr 1; omega
  · rw [if_neg (by omega), if_neg (by omega), if_neg (by omega)]; congr 1; omega

@[simp] theorem inWindow_iff {off : Nat} : inWindow off = true ↔ off < 0x100 := decide_eq_true_iff

theorem wholeWord_iff {off size : Nat} : wholeWord off size = true ↔ size = 4 ∧ off % 4 = 0 := by simp [wholeWord]

/-- A row's word read by the table decoder is the word read by the decoder. -/
theorem decodeTableWord_eq_some {nbits w : Nat} {i : Instr} :
    decodeTableWord nbits w = some i ↔ decode (tableWord nbits w) = .ok i := by
  simp only [decodeTableWord, bytesOfWord, decodeBytes, wordOfBytes_bytes]
  cases decode (tableWord nbits w) <;> simp

end Sys2Proof
end

