-- ==== Sys2Proof/Laws/GroupLaw.lean ====
section
/-! SUPPORT. On a prime field the point arithmetic of 42_ecc_point.md R164 is Mathlib's chord-and-tangent addition, so
double-and-add (43_ecc_smul.md R190) is the multiple in Mathlib's group of points (42_ecc_point.md R176, 43_ecc_smul.md R196). -/

namespace Sys2Proof.Machine

/-- Both coordinates lie below the modulus. -/
def Point.Reduced (p : Nat) : Point → Prop
  | .inf => True
  | .aff x y => x < p ∧ y < p

/-- The curve `y² = x³ + a·x + b` over the integers modulo `p` (42_ecc_point.md R160). -/
def curveOver (a b : Int) (p : Nat) : WeierstrassCurve.Affine (ZMod p) := ⟨0, 0, 0, (a : ZMod p), (b : ZMod p)⟩

theorem modulo_zmod (v : Int) {p : Nat} (hp : 0 < p) : ((modulo v p : Nat) : ZMod p) = (v : ZMod p) := by
  have h : ((modulo v p : Nat) : Int) = v % p := modulo_cast v hp
  have := congrArg (Int.cast : Int → ZMod p) h
  simpa [ZMod.intCast_mod] using this

theorem natCast_zmod_inj {p x y : Nat} (hx : x < p) (hy : y < p) (h : (x : ZMod p) = y) : x = y := by
  have := (ZMod.natCast_eq_natCast_iff' x y p).1 h
  rwa [Nat.mod_eq_of_lt hx, Nat.mod_eq_of_lt hy] at this

/-- On a prime field every value that is not 0 has its inverse (42_ecc_point.md R174). -/
theorem modInv_zmod {p : Nat} [Fact p.Prime] {v : Int} (hv : (v : ZMod p) ≠ 0) :
    ∃ i : Nat, modInv v p = .ok i ∧ (i : ZMod p) = (v : ZMod p)⁻¹ := by
  have hp : p.Prime := Fact.out
  have hg : Int.gcd v p = 1 := by
    rw [Ne, ZMod.intCast_zmod_eq_zero_iff_dvd] at hv
    exact (Int.isCoprime_iff_gcd_eq_one.1 (((Nat.prime_iff_prime_int.1 hp).coprime_iff_not_dvd.2 hv).symm))
  obtain ⟨i, hi, _, hm⟩ := modInv_ok v hp.pos hg
  refine ⟨i, hi, ?_⟩
  have := congrArg (Int.cast : Int → ZMod p) hm
  simp only [ZMod.intCast_mod, Int.cast_mul, Int.cast_natCast, Int.cast_one] at this
  exact eq_inv_of_mul_eq_one_right this

theorem natCast_zmod_ne {p x y : Nat} (hx : x < p) (hy : y < p) (h : x ≠ y) : (x : ZMod p) ≠ y :=
  fun h' => h (natCast_zmod_inj hx hy h')

theorem two_mul_ne_zero_zmod {p y : Nat} [Fact p.Prime] (h2 : 2 < p) (hy : y < p) (h0 : y ≠ 0) :
    ((2 : ZMod p) * y) ≠ 0 := by
  have hp : p.Prime := Fact.out
  have h2' : ((2 : Nat) : ZMod p) ≠ ((0 : Nat) : ZMod p) := natCast_zmod_ne h2 hp.pos (by omega)
  have hy' : (y : ZMod p) ≠ ((0 : Nat) : ZMod p) := natCast_zmod_ne hy hp.pos h0
  exact mul_ne_zero (by simpa using h2') (by simpa using hy')

/-- The slope exists on a prime field for two reduced points outside case (2) (42_ecc_point.md R164, R174); it is Mathlib's when
equal `x` comes with equal `y`. -/
theorem slopeOf_zmod {p : Nat} [Fact p.Prime] (h2 : 2 < p) (a b : Int) {x1 y1 x2 y2 : Nat} (hx1 : x1 < p) (hy1 : y1 < p)
    (hx2 : x2 < p) (hc : ¬ (x1 = x2 ∧ (y1 ≠ y2 ∨ y1 = 0))) :
    ∃ m : Nat, slopeOf x1 y1 x2 y2 a p = .ok m ∧
      (m : ZMod p) = (curveOver a b p).slope (x1 : ZMod p) (x2 : ZMod p) (y1 : ZMod p) (y2 : ZMod p) := by
  have hp : 0 < p := by omega
  unfold slopeOf
  by_cases hx : x1 = x2
  · subst hx
    have hy : y1 = y2 := by
      by_contra h
      exact hc ⟨rfl, .inl h⟩
    have h0 : y1 ≠ 0 := fun h => hc ⟨rfl, .inr h⟩
    subst hy
    have hne := two_mul_ne_zero_zmod h2 hy1 h0
    obtain ⟨i, hi, hinv⟩ := modInv_zmod (p := p) (v := 2 * (y1 : Int)) (by push_cast; exact hne)
    refine ⟨_, by rw [if_pos rfl]; simp only [tangentSlope, hi]; rfl, ?_⟩
    rw [modulo_zmod _ hp]
    have hyne : (y1 : ZMod p) ≠ (curveOver a b p).negY (x1 : ZMod p) (y1 : ZMod p) := by
      simp only [curveOver, WeierstrassCurve.Affine.negY, zero_mul, sub_zero]
      intro h
      exact hne (by linear_combination h)
    rw [WeierstrassCurve.Affine.slope_of_Y_ne rfl hyne]
    push_cast at hinv ⊢
    simp only [hinv, curveOver, WeierstrassCurve.Affine.negY, zero_mul, sub_zero, mul_zero, add_zero, sub_neg_eq_add,
      div_eq_mul_inv, ← two_mul]
    ring
  · rw [if_neg hx]
    have hne := natCast_zmod_ne hx2 hx1 (Ne.symm hx)
    obtain ⟨i, hi, hinv⟩ := modInv_zmod (p := p) (v := (x2 : Int) - x1) (by push_cast; exact sub_ne_zero.2 hne)
    refine ⟨_, by simp only [chordSlope, hi]; rfl, ?_⟩
    rw [modulo_zmod _ hp, WeierstrassCurve.Affine.slope_of_X_ne hne.symm]
    push_cast at hinv ⊢
    rw [hinv, ← neg_sub (y2 : ZMod p), ← neg_sub (x2 : ZMod p), neg_div_neg_eq, div_eq_mul_inv]

/-- Addition outside the cases that give `Inf`: it answers a reduced point, with Mathlib's coordinates. -/
theorem pointAdd_zmod {p : Nat} [Fact p.Prime] (h2 : 2 < p) (a b : Int) {x1 y1 x2 y2 : Nat} (hx1 : x1 < p) (hy1 : y1 < p)
    (hx2 : x2 < p) (hc : ¬ (x1 = x2 ∧ (y1 ≠ y2 ∨ y1 = 0))) :
    ∃ x3 y3 : Nat, pointAdd (.aff x1 y1) (.aff x2 y2) a p = .ok (.aff x3 y3) ∧ x3 < p ∧ y3 < p ∧
      (x3 : ZMod p) = (curveOver a b p).addX (x1 : ZMod p) (x2 : ZMod p)
        ((curveOver a b p).slope (x1 : ZMod p) (x2 : ZMod p) (y1 : ZMod p) (y2 : ZMod p)) ∧
      (y3 : ZMod p) = (curveOver a b p).addY (x1 : ZMod p) (x2 : ZMod p) (y1 : ZMod p)
        ((curveOver a b p).slope (x1 : ZMod p) (x2 : ZMod p) (y1 : ZMod p) (y2 : ZMod p)) := by
  have hp : 0 < p := by omega
  obtain ⟨m, hm, hslope⟩ := slopeOf_zmod h2 a b hx1 hy1 hx2 hc
  refine ⟨_, _, by simp only [pointAdd, if_neg hc, hm, thirdPoint]; rfl, modulo_lt _ hp, modulo_lt _ hp, ?_, ?_⟩
  · rw [modulo_zmod _ hp, ← hslope]
    simp only [WeierstrassCurve.Affine.addX, curveOver]
    push_cast
    ring
  · rw [modulo_zmod _ hp, ← hslope]
    simp only [WeierstrassCurve.Affine.addX, WeierstrassCurve.Affine.addY, WeierstrassCurve.Affine.negAddY,
      WeierstrassCurve.Affine.negY, curveOver]
    push_cast
    rw [modulo_zmod _ hp]
    push_cast
    ring

/-- On a prime field the sum of reduced points exists and is reduced, on a curve or not (42_ecc_point.md R174). -/
theorem pointAdd_reduced {p : Nat} (hp : p.Prime) (h2 : 2 < p) (a : Int) {P Q : Point} (hP : P.Reduced p) (hQ : Q.Reduced p) :
    ∃ R : Point, pointAdd P Q a p = .ok R ∧ R.Reduced p := by
  cases P with
  | inf => exact ⟨Q, rfl, hQ⟩
  | aff x1 y1 =>
    cases Q with
    | inf => exact ⟨_, rfl, hP⟩
    | aff x2 y2 =>
      by_cases hc : x1 = x2 ∧ (y1 ≠ y2 ∨ y1 = 0)
      · exact ⟨.inf, by simp only [pointAdd, if_pos hc], trivial⟩
      · have : Fact p.Prime := ⟨hp⟩
        obtain ⟨x3, y3, h, hx, hy, _⟩ := pointAdd_zmod h2 a 0 hP.1 hP.2 hQ.1 hc
        exact ⟨_, h, hx, hy⟩

/-- A model point stands for a point of Mathlib's curve: reduced, with the same coordinates. -/
def Represents (a b : Int) (p : Nat) : Point → (curveOver a b p).Point → Prop
  | .inf, .zero => True
  | .aff x y, .some X Y _ => x < p ∧ y < p ∧ (x : ZMod p) = X ∧ (y : ZMod p) = Y
  | .inf, .some _ _ _ => False
  | .aff _ _, .zero => False

theorem Represents.unique {a b : Int} {p : Nat} {P P' : Point} {Q : (curveOver a b p).Point} (h : Represents a b p P Q)
    (h' : Represents a b p P' Q) : P = P' := by
  cases P <;> cases P' <;> cases Q <;> simp only [Represents] at h h'
  · rfl
  · rw [natCast_zmod_inj h.1 h'.1 (h.2.2.1.trans h'.2.2.1.symm), natCast_zmod_inj h.2.1 h'.2.1 (h.2.2.2.trans h'.2.2.2.symm)]

theorem Represents.reduced {a b : Int} {p : Nat} {P : Point} {Q : (curveOver a b p).Point} (h : Represents a b p P Q) :
    P.Reduced p := by
  cases P <;> cases Q <;> simp only [Represents] at h
  · trivial
  · exact ⟨h.1, h.2.1⟩

/-- The curve equation of 42_ecc_point.md R161 is Mathlib's. -/
theorem onCurve_zmod (a b : Int) {p : Nat} (hp : 0 < p) (x y : Nat) :
    onCurve (.aff x y) a b p = true ↔ (curveOver a b p).Equation (x : ZMod p) (y : ZMod p) := by
  rw [WeierstrassCurve.Affine.equation_iff', onCurve, beq_iff_eq, modulo_eq_iff hp]
  simp only [hp, true_and, Nat.cast_zero, Int.zero_emod]
  rw [EuclideanDomain.mod_eq_zero, ← ZMod.intCast_zmod_eq_zero_iff_dvd]
  simp only [curveOver]
  push_cast
  ring_nf

/-- On a non-singular curve over a prime field above 2 every reduced point of the curve stands for a point of Mathlib's. -/
theorem exists_represents {a b : Int} {p : Nat} (hp : p.Prime) (h2 : 2 < p) (hd : (4 * a ^ 3 + 27 * b ^ 2) % p ≠ 0) {P : Point}
    (hr : P.Reduced p) (hc : onCurve P a b p = true) : ∃ Q, Represents a b p P Q := by
  cases P with
  | inf => exact ⟨.zero, trivial⟩
  | aff x y =>
    have : Fact p.Prime := ⟨hp⟩
    have heq := (onCurve_zmod a b hp.pos x y).1 hc
    have hdelta : (curveOver a b p).Δ ≠ 0 := by
      have h16 : ((2 : Nat) : ZMod p) ≠ ((0 : Nat) : ZMod p) := natCast_zmod_ne h2 hp.pos (by omega)
      have hd' : ((4 * a ^ 3 + 27 * b ^ 2 : Int) : ZMod p) ≠ 0 := by
        rw [Ne, ZMod.intCast_zmod_eq_zero_iff_dvd]
        exact fun h => hd (Int.emod_eq_zero_of_dvd h)
      have : (curveOver a b p).Δ = -(((2 : Nat) : ZMod p) ^ 4) * ((4 * a ^ 3 + 27 * b ^ 2 : Int) : ZMod p) := by
        simp only [curveOver, WeierstrassCurve.Δ, WeierstrassCurve.b₂, WeierstrassCurve.b₄, WeierstrassCurve.b₆,
          WeierstrassCurve.b₈]
        push_cast
        ring
      rw [this]
      exact mul_ne_zero (neg_ne_zero.2 (pow_ne_zero _ (by simpa using h16))) hd'
    exact ⟨.some _ _ ((WeierstrassCurve.Affine.equation_iff_nonsingular_of_Δ_ne_zero hdelta).1 heq), hr.1, hr.2, rfl, rfl⟩

/-- The point arithmetic of the block is Mathlib's addition (42_ecc_point.md R164, R176). -/
theorem pointAdd_represents {a b : Int} {p : Nat} [Fact p.Prime] (h2 : 2 < p) {P P' : Point} {Q Q' : (curveOver a b p).Point}
    (h : Represents a b p P Q) (h' : Represents a b p P' Q') :
    ∃ R, pointAdd P P' a p = .ok R ∧ Represents a b p R (Q + Q') := by
  cases P with
  | inf =>
    cases Q with
    | zero => exact ⟨P', rfl, by rw [← WeierstrassCurve.Affine.Point.zero_def, zero_add]; exact h'⟩
    | some => exact absurd h id
  | aff x1 y1 =>
    cases P' with
    | inf =>
      cases Q' with
      | zero => exact ⟨_, rfl, by rw [← WeierstrassCurve.Affine.Point.zero_def, add_zero]; exact h⟩
      | some => exact absurd h' id
    | aff x2 y2 =>
      cases Q with
      | zero => exact absurd h id
      | some X1 Y1 n1 =>
        cases Q' with
        | zero => exact absurd h' id
        | some X2 Y2 n2 =>
          obtain ⟨hx1, hy1, rfl, rfl⟩ := h
          obtain ⟨hx2, hy2, rfl, rfl⟩ := h'
          by_cases hc : x1 = x2 ∧ (y1 ≠ y2 ∨ y1 = 0)
          · refine ⟨.inf, by simp only [pointAdd, if_pos hc], ?_⟩
            obtain ⟨rfl, hy⟩ := hc
            have hneg : (y1 : ZMod p) = (curveOver a b p).negY (x1 : ZMod p) (y2 : ZMod p) := by
              rcases WeierstrassCurve.Affine.Y_eq_of_X_eq n1.1 n2.1 rfl with h | h
              · have he := natCast_zmod_inj hy1 hy2 h
                rcases hy with hy | hy
                · exact absurd he hy
                · subst hy
                  rw [← h]
                  simp [curveOver, WeierstrassCurve.Affine.negY]
              · exact h
            rw [WeierstrassCurve.Affine.Point.add_of_Y_eq rfl hneg]
            trivial
          · obtain ⟨x3, y3, hadd, hx3, hy3, hX, hY⟩ := pointAdd_zmod h2 a b hx1 hy1 hx2 hc
            refine ⟨_, hadd, ?_⟩
            have hxy : ¬ ((x1 : ZMod p) = x2 ∧ (y1 : ZMod p) = (curveOver a b p).negY (x2 : ZMod p) (y2 : ZMod p)) := by
              rintro ⟨hx, hy⟩
              have hx := natCast_zmod_inj hx1 hx2 hx
              subst hx
              have hye : y1 = y2 := by
                by_contra h
                exact hc ⟨rfl, .inl h⟩
              subst hye
              have h0 : y1 ≠ 0 := fun h => hc ⟨rfl, .inr h⟩
              apply two_mul_ne_zero_zmod h2 hy1 h0
              simp only [curveOver, WeierstrassCurve.Affine.negY, zero_mul, sub_zero] at hy
              linear_combination hy
            rw [WeierstrassCurve.Affine.Point.add_some hxy]
            exact ⟨hx3, hy3, hX, hY⟩

/-- The loop adds the multiple of the addend (43_ecc_smul.md R190). -/
theorem scalarRun_represents {a b : Int} {p : Nat} [Fact p.Prime] (h2 : 2 < p) : ∀ (fuel : Nat) (r : Scalar)
    {Q A : (curveOver a b p).Point}, r.k ≤ fuel → Represents a b p r.result Q → Represents a b p r.addend A →
    ∃ R, scalarRun fuel r a p = .ok R ∧ Represents a b p R (Q + r.k • A) := by
  intro fuel
  induction fuel with
  | zero =>
    intro r Q A hk hQ _
    have : r.k = 0 := by omega
    exact ⟨_, rfl, by rw [this, zero_nsmul, add_zero]; exact hQ⟩
  | succ n ih =>
    intro r Q A hk hQ hA
    by_cases h0 : r.k = 0
    · exact ⟨r.result, by simp only [scalarRun, if_pos h0], by rw [h0, zero_nsmul, add_zero]; exact hQ⟩
    · obtain ⟨A', hA', hrep⟩ := pointAdd_represents h2 hA hA
      obtain ⟨Q', hQ', hrepQ⟩ : ∃ Q', scalarAccumulate r a p = .ok Q' ∧ Represents a b p Q' (Q + (r.k % 2) • A) := by
        unfold scalarAccumulate
        by_cases hb : r.k % 2 = 1
        · rw [if_pos hb, hb, one_nsmul]
          exact pointAdd_represents h2 hQ hA
        · rw [if_neg hb, show r.k % 2 = 0 by omega, zero_nsmul, add_zero]
          exact ⟨_, rfl, hQ⟩
      obtain ⟨R, hR, hrepR⟩ := ih ⟨r.k / 2, Q', A'⟩ (by show r.k / 2 ≤ n; omega) hrepQ hrep
      refine ⟨R, by simp only [scalarRun, if_neg h0, scalarRound, hQ', hA', hR], ?_⟩
      have hsum : Q + (r.k % 2) • A + (r.k / 2) • (A + A) = Q + r.k • A := by
        rw [← two_nsmul, ← mul_nsmul', add_assoc, ← add_nsmul]
        congr 2
        omega
      rw [← hsum]
      exact hrepR

/-- Scalar multiplication gives the multiple (43_ecc_smul.md R196). -/
theorem scalarMul_represents {a b : Int} {p : Nat} [Fact p.Prime] (h2 : 2 < p) (k : Nat) {P : Point}
    {Q : (curveOver a b p).Point} (h : Represents a b p P Q) :
    ∃ R, scalarMul k P a p = .ok R ∧ Represents a b p R (k • Q) := by
  obtain ⟨R, hR, hrep⟩ := scalarRun_represents h2 k (scalarStart k P) (Q := 0) (A := Q) le_rfl trivial h
  exact ⟨R, hR, by simpa [scalarStart] using hrep⟩

/-- On a prime field the loop never lacks an inverse, from reduced points, on a curve or not (42_ecc_point.md R174). -/
theorem scalarRun_reduced {p : Nat} (hp : p.Prime) (h2 : 2 < p) (a : Int) : ∀ (fuel : Nat) (r : Scalar), r.result.Reduced p →
    r.addend.Reduced p → ∃ R, scalarRun fuel r a p = .ok R ∧ R.Reduced p := by
  intro fuel
  induction fuel with
  | zero => intro r h _; exact ⟨_, rfl, h⟩
  | succ n ih =>
    intro r h h'
    by_cases h0 : r.k = 0
    · exact ⟨r.result, by simp only [scalarRun, if_pos h0], h⟩
    · obtain ⟨A', hA', hredA⟩ := pointAdd_reduced hp h2 a h' h'
      obtain ⟨Q', hQ', hredQ⟩ : ∃ Q', scalarAccumulate r a p = .ok Q' ∧ Q'.Reduced p := by
        unfold scalarAccumulate
        split
        · exact pointAdd_reduced hp h2 a h h'
        · exact ⟨_, rfl, h⟩
      obtain ⟨R, hR, hred⟩ := ih ⟨r.k / 2, Q', A'⟩ hredQ hredA
      exact ⟨R, by simp only [scalarRun, if_neg h0, scalarRound, hQ', hA', hR], hred⟩

end Sys2Proof.Machine
end

