-- ==== Sys2Proof/Laws/State.lean ====
section
/-! SUPPORT. One lemma per field per update, so that no later proof unfolds a record update. -/

namespace Sys2Proof.Machine

@[simp] theorem issue_operands (w : Word) (s : State) : (issue w s).operands = s.operands := rfl
@[simp] theorem issue_results (w : Word) (s : State) : (issue w s).results = s.results := rfl
@[simp] theorem issue_ctrl (w : Word) (s : State) : (issue w s).ctrl = s.ctrl := rfl
@[simp] theorem issue_status (w : Word) (s : State) : (issue w s).status = statusIssued s.status := rfl
@[simp] theorem issue_oplatch (w : Word) (s : State) : (issue w s).oplatch = w := rfl
@[simp] theorem issue_work (w : Word) (s : State) : (issue w s).work = workStart w s.operands := rfl
@[simp] theorem issue_rdata (w : Word) (s : State) : (issue w s).rdata = s.rdata := rfl
@[simp] theorem issue_events (w : Word) (s : State) : (issue w s).events = s.events := rfl

@[simp] theorem dropWrite_operands (s : State) : (dropWrite s).operands = s.operands := rfl
@[simp] theorem dropWrite_results (s : State) : (dropWrite s).results = s.results := rfl
@[simp] theorem dropWrite_ctrl (s : State) : (dropWrite s).ctrl = s.ctrl := rfl
@[simp] theorem dropWrite_status (s : State) : (dropWrite s).status = statusDropped s.status := rfl
@[simp] theorem dropWrite_oplatch (s : State) : (dropWrite s).oplatch = s.oplatch := rfl
@[simp] theorem dropWrite_work (s : State) : (dropWrite s).work = s.work := rfl
@[simp] theorem dropWrite_rdata (s : State) : (dropWrite s).rdata = s.rdata := rfl
@[simp] theorem dropWrite_events (s : State) : (dropWrite s).events = s.events := rfl

@[simp] theorem completeOk_operands (r : Results) (s : State) : (completeOk r s).operands = s.operands := rfl
@[simp] theorem completeOk_results (r : Results) (s : State) : (completeOk r s).results = r := rfl
@[simp] theorem completeOk_ctrl (r : Results) (s : State) : (completeOk r s).ctrl = s.ctrl := rfl
@[simp] theorem completeOk_status (r : Results) (s : State) : (completeOk r s).status = statusCompleted 0 s.status := rfl
@[simp] theorem completeOk_oplatch (r : Results) (s : State) : (completeOk r s).oplatch = s.oplatch := rfl
@[simp] theorem completeOk_work (r : Results) (s : State) : (completeOk r s).work = s.work := rfl
@[simp] theorem completeOk_rdata (r : Results) (s : State) : (completeOk r s).rdata = s.rdata := rfl
@[simp] theorem completeOk_events (r : Results) (s : State) : (completeOk r s).events = s.events := rfl

@[simp] theorem completeErr_operands (e : Err) (s : State) : (completeErr e s).operands = s.operands := rfl
@[simp] theorem completeErr_results (e : Err) (s : State) : (completeErr e s).results = s.results := rfl
@[simp] theorem completeErr_ctrl (e : Err) (s : State) : (completeErr e s).ctrl = s.ctrl := rfl
@[simp] theorem completeErr_status (e : Err) (s : State) : (completeErr e s).status = statusCompleted (errCode e) s.status := rfl
@[simp] theorem completeErr_oplatch (e : Err) (s : State) : (completeErr e s).oplatch = s.oplatch := rfl
@[simp] theorem completeErr_work (e : Err) (s : State) : (completeErr e s).work = s.work := rfl
@[simp] theorem completeErr_rdata (e : Err) (s : State) : (completeErr e s).rdata = s.rdata := rfl
@[simp] theorem completeErr_events (e : Err) (s : State) : (completeErr e s).events = s.events := rfl

@[simp] theorem engineWork_operands (s : State) : (engineWork s).operands = s.operands := rfl
@[simp] theorem engineWork_results (s : State) : (engineWork s).results = s.results := rfl
@[simp] theorem engineWork_ctrl (s : State) : (engineWork s).ctrl = s.ctrl := rfl
@[simp] theorem engineWork_status (s : State) : (engineWork s).status = s.status := rfl
@[simp] theorem engineWork_oplatch (s : State) : (engineWork s).oplatch = s.oplatch := rfl
@[simp] theorem engineWork_work (s : State) : (engineWork s).work = workRound s.oplatch s.operands s.work := rfl
@[simp] theorem engineWork_rdata (s : State) : (engineWork s).rdata = s.rdata := rfl
@[simp] theorem engineWork_events (s : State) : (engineWork s).events = s.events := rfl

@[simp] theorem resetBlock_operands (s : State) : (resetBlock s).operands = State.reset.operands := rfl
@[simp] theorem resetBlock_results (s : State) : (resetBlock s).results = State.reset.results := rfl
@[simp] theorem resetBlock_ctrl (s : State) : (resetBlock s).ctrl = State.reset.ctrl := rfl
@[simp] theorem resetBlock_status (s : State) : (resetBlock s).status = State.reset.status := rfl
@[simp] theorem resetBlock_oplatch (s : State) : (resetBlock s).oplatch = State.reset.oplatch := rfl
@[simp] theorem resetBlock_work (s : State) : (resetBlock s).work = State.reset.work := rfl
@[simp] theorem resetBlock_rdata (s : State) : (resetBlock s).rdata = State.reset.rdata := rfl
@[simp] theorem resetBlock_events (s : State) : (resetBlock s).events = s.events := rfl

@[simp] theorem storeReg_results (r : Reg) (v : Word) (s : State) : (storeReg r v s).results = s.results := by cases r <;> rfl
@[simp] theorem storeReg_status (r : Reg) (v : Word) (s : State) : (storeReg r v s).status = s.status := by cases r <;> rfl
@[simp] theorem storeReg_oplatch (r : Reg) (v : Word) (s : State) : (storeReg r v s).oplatch = s.oplatch := by cases r <;> rfl
@[simp] theorem storeReg_work (r : Reg) (v : Word) (s : State) : (storeReg r v s).work = s.work := by cases r <;> rfl
@[simp] theorem storeReg_rdata (r : Reg) (v : Word) (s : State) : (storeReg r v s).rdata = s.rdata := by cases r <;> rfl
@[simp] theorem storeReg_events (r : Reg) (v : Word) (s : State) : (storeReg r v s).events = s.events := by cases r <;> rfl

@[simp] theorem commit_operands (o : Except Err Results) (s : State) : (commit o s).operands = s.operands := by cases o <;> rfl
@[simp] theorem commit_ctrl (o : Except Err Results) (s : State) : (commit o s).ctrl = s.ctrl := by cases o <;> rfl
@[simp] theorem commit_oplatch (o : Except Err Results) (s : State) : (commit o s).oplatch = s.oplatch := by cases o <;> rfl
@[simp] theorem commit_work (o : Except Err Results) (s : State) : (commit o s).work = s.work := by cases o <;> rfl
@[simp] theorem commit_rdata (o : Except Err Results) (s : State) : (commit o s).rdata = s.rdata := by cases o <;> rfl
@[simp] theorem commit_events (o : Except Err Results) (s : State) : (commit o s).events = s.events := by cases o <;> rfl

@[simp] theorem commit_ok (r : Results) (s : State) : commit (.ok r) s = completeOk r s := rfl
@[simp] theorem commit_error (e : Err) (s : State) : commit (.error e) s = completeErr e s := rfl

@[simp] theorem statusIssued_busy (t : Status) : (statusIssued t).busy = true := rfl
@[simp] theorem statusIssued_done (t : Status) : (statusIssued t).done = false := rfl
@[simp] theorem statusIssued_err (t : Status) : (statusIssued t).err = 0 := rfl
@[simp] theorem statusIssued_werr (t : Status) : (statusIssued t).werr = t.werr := rfl
@[simp] theorem statusCompleted_busy (code : BitVec 4) (t : Status) : (statusCompleted code t).busy = false := rfl
@[simp] theorem statusCompleted_done (code : BitVec 4) (t : Status) : (statusCompleted code t).done = true := rfl
@[simp] theorem statusCompleted_err (code : BitVec 4) (t : Status) : (statusCompleted code t).err = code := rfl
@[simp] theorem statusCompleted_werr (code : BitVec 4) (t : Status) : (statusCompleted code t).werr = t.werr := rfl
@[simp] theorem statusDropped_busy (t : Status) : (statusDropped t).busy = t.busy := rfl
@[simp] theorem statusDropped_done (t : Status) : (statusDropped t).done = t.done := rfl
@[simp] theorem statusDropped_err (t : Status) : (statusDropped t).err = t.err := rfl
@[simp] theorem statusDropped_werr (t : Status) : (statusDropped t).werr = true := rfl
@[simp] theorem statusW1C_busy (v : Word) (t : Status) : (statusW1C v t).busy = t.busy := rfl
@[simp] theorem statusW1C_done (v : Word) (t : Status) : (statusW1C v t).done = (t.done && !v.getLsbD 1) := rfl
@[simp] theorem statusW1C_err (v : Word) (t : Status) : (statusW1C v t).err = t.err := rfl
@[simp] theorem statusW1C_werr (v : Word) (t : Status) : (statusW1C v t).werr = (t.werr && !v.getLsbD 8) := rfl

end Sys2Proof.Machine
end

