-- ==== Sys2Proof/Laws/Ops.lean ====
section
/-! SUPPORT. What each shared operation can do, said once: the register map, host writes, the point prologue, the outcome of a
command. -/

namespace Sys2Proof.Machine

/-- The host reads back the ERR that STATUS holds (10_state.md R29). -/
@[simp] theorem statusErr_statusWord (t : Status) : statusErr (statusWord t) = t.err := by
  obtain ⟨b, d, e, w⟩ := t
  revert b d e w
  decide

/-- The host reads back the DONE that STATUS holds (10_state.md R29). -/
@[simp] theorem statusDone_statusWord (t : Status) : statusDone (statusWord t) = t.done := by
  obtain ⟨b, d, e, w⟩ := t
  revert b d e w
  decide

@[simp] theorem regAt_regOffset (r : Reg) : regAt (regOffset r) = some r := by cases r <;> rfl

theorem regAt_eq_some {off : Nat} {r : Reg} (h : regAt off = some r) : regOffset r = off := by
  have := List.find?_some h
  simpa using this

theorem mem_allRegs (r : Reg) : r ∈ allRegs := by cases r <;> decide

theorem regAt_eq_none_iff {off : Nat} : regAt off = none ↔ ∀ r, regOffset r ≠ off := by
  unfold regAt
  rw [List.find?_eq_none]
  constructor
  · intro h r
    simpa using h r (mem_allRegs r)
  · intro h r _
    simpa using h r

theorem regOffset_injective {r r' : Reg} (h : regOffset r = regOffset r') : r = r' := by
  have := regAt_regOffset r
  rw [h, regAt_regOffset] at this
  exact (Option.some.inj this).symm

/-- What a host write of an aligned offset can do (70_reset_and_hazards.md R260), in its five cases. -/
theorem windowWrite_cases (off : Nat) (v : Word) (s : State) :
    (off = 0x08 ∧ windowWrite off v s = { s with status := statusW1C v s.status }) ∨
    (off ≠ 0x08 ∧ s.status.busy = true ∧ windowWrite off v s = dropWrite s) ∨
    (off = 0x04 ∧ s.status.busy = false ∧ windowWrite off v s = issue v s) ∨
    (∃ r, off = regOffset r ∧ r ≠ .cmd ∧ r ≠ .status ∧ s.status.busy = false ∧ windowWrite off v s = storeReg r v s) ∨
    ((∀ r, regOffset r ≠ off) ∧ s.status.busy = false ∧ windowWrite off v s = s) := by
  unfold windowWrite
  by_cases h8 : off = regOffset .status
  · exact .inl ⟨h8, by rw [if_pos h8]⟩
  rw [if_neg h8]
  by_cases hb : s.status.busy = true
  · exact .inr (.inl ⟨h8, hb, by rw [if_pos hb]⟩)
  rw [if_neg hb]
  have hb' : s.status.busy = false := by simpa using hb
  by_cases h4 : off = regOffset .cmd
  · exact .inr (.inr (.inl ⟨h4, hb', by rw [if_pos h4]⟩))
  rw [if_neg h4]
  cases hr : regAt off with
  | some r =>
    have ho := regAt_eq_some hr
    exact .inr (.inr (.inr (.inl ⟨r, ho.symm, by rintro rfl; exact h4 ho.symm, by rintro rfl; exact h8 ho.symm, hb', rfl⟩)))
  | none => exact .inr (.inr (.inr (.inr ⟨regAt_eq_none_iff.1 hr, hb', rfl⟩)))

@[simp] theorem windowWrite_results (off : Nat) (v : Word) (s : State) : (windowWrite off v s).results = s.results := by
  obtain ⟨_, h⟩ | ⟨_, _, h⟩ | ⟨_, _, h⟩ | ⟨_, _, _, _, _, h⟩ | ⟨_, _, h⟩ := windowWrite_cases off v s <;> simp [h]

@[simp] theorem windowWrite_rdata (off : Nat) (v : Word) (s : State) : (windowWrite off v s).rdata = s.rdata := by
  obtain ⟨_, h⟩ | ⟨_, _, h⟩ | ⟨_, _, h⟩ | ⟨_, _, _, _, _, h⟩ | ⟨_, _, h⟩ := windowWrite_cases off v s <;> simp [h]

@[simp] theorem windowWrite_events (off : Nat) (v : Word) (s : State) : (windowWrite off v s).events = s.events := by
  obtain ⟨_, h⟩ | ⟨_, _, h⟩ | ⟨_, _, h⟩ | ⟨_, _, _, _, _, h⟩ | ⟨_, _, h⟩ := windowWrite_cases off v s <;> simp [h]

/-- `Execute` of a command, as the outcome its completion commits (30_encoding.md R98). -/
def commandOutcome (i : Instr) (s : State) : Except Err Results :=
  match i with
  | .modinv => modinvOutcome s
  | .padd => paddOutcome s
  | .pdbl => pdblOutcome s
  | .smul => smulOutcome s
  | .oncurve => oncurveOutcome s
  | .affenc => affencOutcome s
  | .affdec => affdecOutcome s

/-- Every command answers a next state: its outcome, committed (30_encoding.md R96). -/
theorem exec_eq_commit (i : Instr) (s : State) : exec i s = .next (commit (commandOutcome i s) s) := by cases i <;> rfl

/-- `Execute(OPLATCH)` (30_encoding.md R98). -/
def latchOutcome (s : State) : Except Err Results :=
  match decode s.oplatch with
  | .ok i => commandOutcome i s
  | .error _ => .error .illegalCmd

theorem completion_eq_commit (s : State) : completion s = .next (commit (latchOutcome s) s) := by
  unfold completion latchOutcome
  cases decode s.oplatch with
  | ok i => exact exec_eq_commit i s
  | error _ => rfl

/-- What PADD, PDBL and SMUL can end with (42_ecc_point.md R167), in the order the errors are tried. -/
theorem pointCommand_cases (s : State) (points : List Point) (arithmetic : Except Err Point) :
    (modulus s.operands = 0 ∧ pointCommand s points arithmetic = .error .badModulus) ∨
    (modulus s.operands ≠ 0 ∧ pointsAccepted s points = false ∧ pointCommand s points arithmetic = .error .invalidPoint) ∨
    (modulus s.operands ≠ 0 ∧ pointsAccepted s points = true ∧ (∃ e, arithmetic = .error e ∧
      pointCommand s points arithmetic = .error e)) ∨
    (modulus s.operands ≠ 0 ∧ pointsAccepted s points = true ∧ (∃ R, arithmetic = .ok R ∧
      pointCommand s points arithmetic = .ok (encodePoint R))) := by
  unfold pointCommand checkedModulus
  by_cases hm : modulus s.operands = 0
  · exact .inl ⟨hm, by simp [hm]⟩
  · simp only [hm, if_false]
    cases hp : pointsAccepted s points
    · exact .inr (.inl ⟨hm, rfl, by simp⟩)
    · cases arithmetic with
      | error e => exact .inr (.inr (.inl ⟨hm, rfl, e, rfl, by simp⟩))
      | ok R => exact .inr (.inr (.inr ⟨hm, rfl, R, rfl, by simp⟩))

theorem slopeOf_error {x1 y1 x2 y2 : Nat} {a : Int} {p : Nat} {e : Err} (hp : 0 < p)
    (h : slopeOf x1 y1 x2 y2 a p = .error e) : e = .noInverse := by
  unfold slopeOf tangentSlope chordSlope at h
  split at h <;> split at h
  · cases h
  · cases h; exact ((modInv_eq_error_iff hp).1 ‹_›).1
  · cases h
  · cases h; exact ((modInv_eq_error_iff hp).1 ‹_›).1

/-- The group law raises no error but NoInverse (42_ecc_point.md R174). -/
theorem pointAdd_error {P Q : Point} {a : Int} {p : Nat} {e : Err} (hp : 0 < p) (h : pointAdd P Q a p = .error e) :
    e = .noInverse := by
  unfold pointAdd at h
  split at h
  · cases h
  · cases h
  · split at h
    · cases h
    · split at h
      · cases h
      · cases h; exact slopeOf_error hp ‹_›

theorem scalarRun_error {a : Int} {p : Nat} {e : Err} (hp : 0 < p) :
    ∀ (fuel : Nat) (r : Scalar), scalarRun fuel r a p = .error e → e = .noInverse := by
  intro fuel
  induction fuel with
  | zero => intro r h; cases h
  | succ n ih =>
    intro r h
    unfold scalarRun at h
    split at h
    · cases h
    · split at h
      · exact ih _ h
      · rename_i e' h'
        cases h
        unfold scalarRound scalarAccumulate at h'
        split at h'
        · rename_i h''
          cases h'
          split at h''
          · exact pointAdd_error hp h''
          · cases h''
        · split at h'
          · rename_i h''
            cases h'
            exact pointAdd_error hp h''
          · cases h'

/-- The doubler's formulas are the adder's on equal points (42_ecc_point.md R165). -/
theorem pointDbl_eq_pointAdd (P : Point) (a : Int) (p : Nat) : pointDbl P a p = pointAdd P P a p := by
  cases P with
  | inf => rfl
  | aff x y =>
    simp only [pointDbl, pointAdd, slopeOf, if_true, ne_eq, not_true, false_or, true_and]
    split
    · rfl
    · cases tangentSlope x y a p with
      | error e => rfl
      | ok m => simp only [thirdPoint, sub_sub, two_mul]

theorem pointDbl_error {P : Point} {a : Int} {p : Nat} {e : Err} (hp : 0 < p) (h : pointDbl P a p = .error e) :
    e = .noInverse := pointAdd_error hp (pointDbl_eq_pointAdd P a p ▸ h)

theorem modulus_eq_zero_iff {o : Operands} : modulus o = 0 ↔ o.mod = 0 := by
  constructor
  · intro h
    exact BitVec.eq_of_toNat_eq h
  · intro h
    simp only [modulus, uint, h]
    rfl

/-- Past its prologue a point command ends as its arithmetic does (42_ecc_point.md R167). -/
theorem pointCommand_accepted {s : State} {points : List Point} (hm : modulus s.operands ≠ 0)
    (hp : pointsAccepted s points = true) (arithmetic : Except Err Point) :
    pointCommand s points arithmetic =
      match arithmetic with
      | .ok R => .ok (encodePoint R)
      | .error e => .error e := by
  unfold pointCommand checkedModulus
  rw [if_neg hm]
  exact if_pos hp

/-- `Execute` reads operand registers and CTRL and nothing else (30_encoding.md R96, 00_scope.md R17). -/
theorem commandOutcome_congr (i : Instr) {s s' : State} (h : s.operands = s'.operands) (h' : s.ctrl = s'.ctrl) :
    commandOutcome i s = commandOutcome i s' := by
  have hc : pointCheck s = pointCheck s' := by simp only [pointCheck, h']
  cases i <;> simp only [commandOutcome, modinvOutcome, paddOutcome, pdblOutcome, smulOutcome, oncurveOutcome, affencOutcome,
    affdecOutcome, pointCommand, pointsAccepted, h, hc] <;> rfl

end Sys2Proof.Machine
end

