-- ==== Sys2Proof/Laws/Step.lean ====
section
/-! SUPPORT. What one step can do, said once; every invariant of the block follows from this. -/

namespace Sys2Proof.Machine

@[simp] theorem portCheck_wf {off size : Nat} (h : inWindow off = true) (h' : wholeWord off size = true)
    (k : Host.Outcome State Fault Refusal) : portCheck off size k = k := by simp [portCheck, h, h']

theorem portCheck_next {off size : Nat} {k : Host.Outcome State Fault Refusal} {t : State}
    (h : portCheck off size k = .next t) : inWindow off = true ∧ wholeWord off size = true ∧ k = .next t := by
  unfold portCheck at h
  split at h
  · split at h
    · exact ⟨‹_›, ‹_›, h⟩
    · cases h
  · cases h

/-- What one event can do when it answers a next state. -/
theorem applyEvent_cases {e : Event} {s t : State} (h : applyEvent e s = .next t) :
    (∃ off size, e = .read off size ∧ e.wf = true ∧ t = { s with rdata := windowRead s off }) ∨
    (∃ off size v, e = .write off size v ∧ e.wf = true ∧ t = windowWrite off v s) ∨
    (e = .completion ∧ s.status.busy = true ∧ t = commit (latchOutcome s) s) ∨
    (e = .work ∧ s.status.busy = true ∧ t = engineWork s) ∨
    ((e = .completion ∨ e = .work) ∧ s.status.busy = false ∧ t = s) ∨
    (e = .reset ∧ t = resetBlock s) := by
  cases e with
  | read off size =>
    obtain ⟨h1, h2, h3⟩ := portCheck_next h
    cases h3
    exact .inl ⟨off, size, rfl, by simp [Event.wf, h1, h2], rfl⟩
  | write off size v =>
    obtain ⟨h1, h2, h3⟩ := portCheck_next h
    cases h3
    exact .inr (.inl ⟨off, size, v, rfl, by simp [Event.wf, h1, h2], rfl⟩)
  | completion =>
    simp only [applyEvent] at h
    cases hb : s.status.busy <;> simp only [hb, if_true, Bool.false_eq_true, if_false] at h
    · cases h; exact .inr (.inr (.inr (.inr (.inl ⟨.inl rfl, rfl, rfl⟩))))
    · rw [completion_eq_commit] at h; cases h; exact .inr (.inr (.inl ⟨rfl, rfl, rfl⟩))
  | work =>
    simp only [applyEvent] at h
    cases hb : s.status.busy <;> simp only [hb, if_true, Bool.false_eq_true, if_false] at h
    · cases h; exact .inr (.inr (.inr (.inr (.inl ⟨.inr rfl, rfl, rfl⟩))))
    · cases h; exact .inr (.inr (.inr (.inl ⟨rfl, rfl, rfl⟩)))
  | reset => cases h; exact .inr (.inr (.inr (.inr (.inr ⟨rfl, rfl⟩))))

/-- What one step can do when it answers a next state: the next event happens, or the queue is empty and a command in flight
completes, or nothing is left to do. -/
theorem step_cases {s t : State} (h : step s = .next t) :
    (∃ e rest, s.events = e :: rest ∧ applyEvent e { s with events := rest } = .next t) ∨
    (s.events = [] ∧ s.status.busy = true ∧ t = commit (latchOutcome s) s) ∨
    (s.events = [] ∧ s.status.busy = false ∧ t = s) := by
  unfold step at h
  split at h
  · exact .inl ⟨_, _, ‹_›, h⟩
  · cases hb : s.status.busy <;> simp only [hb, if_true, Bool.false_eq_true, if_false] at h
    · cases h; exact .inr (.inr ⟨‹_›, rfl, rfl⟩)
    · rw [completion_eq_commit] at h; cases h; exact .inr (.inl ⟨‹_›, rfl, rfl⟩)

/-- An event of a well-formed request always answers a next state: "Nothing in the block is `stuck`". -/
theorem applyEvent_wf {e : Event} (h : e.wf = true) (s : State) : ∃ t, applyEvent e s = .next t := by
  cases e with
  | read off size =>
    simp only [Event.wf, Bool.and_eq_true] at h
    exact ⟨_, portCheck_wf h.1 (by simpa using h.2) _⟩
  | write off size v =>
    simp only [Event.wf, Bool.and_eq_true] at h
    exact ⟨_, portCheck_wf h.1 (by simpa using h.2) _⟩
  | completion =>
    simp only [applyEvent]
    split
    · exact ⟨_, completion_eq_commit s⟩
    · exact ⟨_, rfl⟩
  | work => simp only [applyEvent]; split <;> exact ⟨_, rfl⟩
  | reset => exact ⟨_, rfl⟩

/-- One more step in front of a run. -/
theorem core_run_succ {s t : State} (n : Nat) (h : step s = .next t) : Sys2Proof.core.run (n + 1) s = Sys2Proof.core.run n t := by
  have h' : Sys2Proof.core.step s = .next t := h
  have hr := Host.Core.run.eq_2 Sys2Proof.core s n
  rw [h'] at hr
  exact hr

end Sys2Proof.Machine
end

