-- ==== Sys2Proof/Laws/HostSeq.lean ====
section
/-! SUPPORT. What one access of a host program can do, said once, and how schedules compose. -/

namespace Sys2Proof.Machine

theorem wrEvent_next (r : Reg) (v : Word) (s : State) :
    applyEvent (wrEvent r v) s = .next (windowWrite (regOffset r) v s) := by cases r <;> rfl

theorem rdEvent_next (r : Reg) (s : State) :
    applyEvent (rdEvent r) s = .next { s with rdata := readReg s r } := by cases r <;> rfl

/-- Nothing left to do: the program stands. -/
theorem hostAct_ended {h : HostRun} (e : h.todo = []) : hostAct h = .next h := by
  unfold hostAct
  rw [e]

/-- A `WR` writes the register and notes the transaction. -/
theorem hostAct_wr {h : HostRun} {r : Reg} {v : HostValue} {rest : List HostAct} (e : h.todo = .wr r v :: rest) :
    hostAct h = .next { block := windowWrite (regOffset r) (hostValue h v) h.block, todo := rest,
                        pinf := if r = .pinf then hostValue h v else h.pinf,
                        made := .write (regOffset r) (hostValue h v) :: h.made } := by
  unfold hostAct
  rw [e]
  simp only [wrEvent_next]

/-- A `RD` reads the register and notes the transaction. -/
theorem hostAct_rd {h : HostRun} {r : Reg} {rest : List HostAct} (e : h.todo = .rd r :: rest) :
    hostAct h = .next { h with block := { h.block with rdata := readReg h.block r }, todo := rest,
                               made := .read (regOffset r) (readReg h.block r) :: h.made } := by
  unfold hostAct
  rw [e]
  simp only [rdEvent_next]

/-- A `WAIT` reads STATUS and is over exactly when DONE = 1. -/
theorem hostAct_wait {h : HostRun} {rest : List HostAct} (e : h.todo = .wait :: rest) :
    hostAct h = .next { h with block := { h.block with rdata := statusWord h.block.status },
                               todo := if h.block.status.done then rest else .wait :: rest,
                               made := .read (regOffset .status) (statusWord h.block.status) :: h.made } := by
  unfold hostAct
  rw [e]
  simp only [rdEvent_next, readReg, statusDone_statusWord]

/-- No host program stops the block: every register of the notation lies in the window (20_memory.md R64). -/
theorem hostAct_next (h : HostRun) : ∃ g, hostAct h = .next g := by
  cases e : h.todo with
  | nil => exact ⟨_, hostAct_ended e⟩
  | cons a rest =>
    cases a with
    | wr r v => exact ⟨_, hostAct_wr e⟩
    | rd r => exact ⟨_, hostAct_rd e⟩
    | wait => exact ⟨_, hostAct_wait e⟩

@[simp] theorem hostStep_false (h : HostRun) : hostStep false h = hostAct h := rfl

/-- A program run on one schedule and then on another. -/
theorem hostRun_append (cs ds : List Bool) (h g : HostRun) (e : hostRun cs h = .next g) :
    hostRun (cs ++ ds) h = hostRun ds g := by
  induction cs generalizing h with
  | nil => cases e; rfl
  | cons c cs ih =>
    simp only [List.cons_append, hostRun] at e ⊢
    cases k : hostStep c h with
    | next t => rw [k] at e; exact ih t e
    | fault r => rw [k] at e; cases e
    | refused r => rw [k] at e; cases e

end Sys2Proof.Machine
end

