-- ==== Sys2Proof/Laws/PerInstr.lean ====
section
/-! SUPPORT. Statements made for every instruction as syntax, one lemma per constructor. -/

namespace Sys2Proof.Laws

/-- Encoding and decoding agree, as a word and as bytes with anything after them, and the command has its place in the opcode
map (30_encoding.md R92, 20_memory.md R69). -/
def RoundTrip.Statement (i : Instr) : Prop :=
  i.wf = true ∧ decode (encode i) = .ok i ∧ (∀ rest : List Byte, decodeBytes (encodeBytes i ++ rest) = .ok (i, rest)) ∧
    (∃ r ∈ opcodeRows, r.instr = i ∧ r.pattern = encode i ∧ r.mask = 0xFFFFFFFF#32)

theorem RoundTrip.modinv : RoundTrip.Statement .modinv :=
  ⟨rfl, rfl, fun _ => rfl, ⟨0x00000001#32, 0xFFFFFFFF#32, .modinv⟩, by decide, rfl, rfl, rfl⟩
theorem RoundTrip.padd : RoundTrip.Statement .padd :=
  ⟨rfl, rfl, fun _ => rfl, ⟨0x00000002#32, 0xFFFFFFFF#32, .padd⟩, by decide, rfl, rfl, rfl⟩
theorem RoundTrip.pdbl : RoundTrip.Statement .pdbl :=
  ⟨rfl, rfl, fun _ => rfl, ⟨0x00000003#32, 0xFFFFFFFF#32, .pdbl⟩, by decide, rfl, rfl, rfl⟩
theorem RoundTrip.smul : RoundTrip.Statement .smul :=
  ⟨rfl, rfl, fun _ => rfl, ⟨0x00000004#32, 0xFFFFFFFF#32, .smul⟩, by decide, rfl, rfl, rfl⟩
theorem RoundTrip.oncurve : RoundTrip.Statement .oncurve :=
  ⟨rfl, rfl, fun _ => rfl, ⟨0x00000005#32, 0xFFFFFFFF#32, .oncurve⟩, by decide, rfl, rfl, rfl⟩
theorem RoundTrip.affenc : RoundTrip.Statement .affenc :=
  ⟨rfl, rfl, fun _ => rfl, ⟨0x00000006#32, 0xFFFFFFFF#32, .affenc⟩, by decide, rfl, rfl, rfl⟩
theorem RoundTrip.affdec : RoundTrip.Statement .affdec :=
  ⟨rfl, rfl, fun _ => rfl, ⟨0x00000007#32, 0xFFFFFFFF#32, .affdec⟩, by decide, rfl, rfl, rfl⟩

end Sys2Proof.Laws
end

