-- ==== Sys2Proof/Tests/Slice0.lean ====
section
/-! SUPPORT. Tests. Expected results come from the tables and examples of spec/ named in each test; the theorems named
`test_witness_…` show that the hypotheses of the statement of that name can be met, clause by clause, at boundary values. -/

namespace Sys2Proof.Tests

open Sys2Proof Sys2Proof.Machine Sys2Proof.Claims

/-- The reset operand registers with a modulus and a value. -/
def modVal (m v : Word) : Operands := { State.reset.operands with mod := m, val := v }

/-- The reset operand registers with the affine key `(a, b)` and a character. -/
def affine (a b : Word) (c : Byte) : Operands := { State.reset.operands with afa := a, afb := b, chr := c }

/-- The curve `(2, 2, 17)` of 95_test_vectors.md with P1, P2, PINF and K. -/
def curve17 (x1 y1 x2 y2 : Word) (pinf : BitVec 2) (k : Word) : Operands :=
  { State.reset.operands with mod := 17, ca := 2, cb := 2, x1 := x1, y1 := y1, x2 := x2, y2 := y2, pinf := pinf, k := k }

/-- An idle block with operands, CTRL and the events to come. -/
def idle (o : Operands) (ctrl : BitVec 2) (es : List Event) : State :=
  { State.reset with operands := o, ctrl := ctrl, events := es }

/-- A block busy with the command word `w`. -/
def busy (w : Word) (o : Operands) (ctrl : BitVec 2) (es : List Event) : State := { issue w (idle o ctrl []) with events := es }

/-- STATUS, RES0, RES1 and RINF as a host reads them in the next state. -/
def readOut (r : Host.Outcome State Fault Refusal) : Option (Word × Word × Word × Word) :=
  match r with
  | .next t => some (readReg t .status, readReg t .res0, readReg t .res1, readReg t .rinf)
  | .fault _ => none
  | .refused _ => none

/-- The outcome is a next state. -/
def goesOn (r : Host.Outcome State Fault Refusal) : Bool :=
  match r with
  | .next _ => true
  | .fault _ => false
  | .refused _ => false

/-! ## Well-formedness -/

/-- 20_memory.md R61: 0x100 lies past the window. -/
theorem test_ill_formed_outside : Event.wf (.read 0x100 4) = false ∧ Event.wf (.write 0x100 4 0) = false := by decide
/-- 20_memory.md R64: a misaligned word. -/
theorem test_ill_formed_misaligned : Event.wf (.read 0x02 4) = false ∧ Event.wf (.write 0x11 4 0) = false := by decide
/-- 20_memory.md R64: a byte, a half word. -/
theorem test_ill_formed_narrow : Event.wf (.read 0x10 1) = false ∧ Event.wf (.write 0x10 2 0) = false := by decide
theorem test_well_formed_edges : Event.wf (.read 0x00 4) = true ∧ Event.wf (.write 0xFC 4 0) = true := by decide
/-- 30_encoding.md R90: a command has no field, so no command is ill-formed. -/
theorem test_commands_well_formed : ∀ r ∈ opcodeRows, r.instr.wf = true := by decide
/-- The ill-formed requests stop under their names. -/
theorem test_ill_formed_stops : portCheck 0x100 4 (.next State.reset) ≠ .next State.reset ∧
    portCheck 0x10 2 (.next State.reset) ≠ .next State.reset := by
  constructor <;> intro h <;> cases h

/-! ## Decoding -/

/-- 30_encoding.md R92: no two rows of the opcode map overlap. -/
theorem test_rows_disjoint :
    opcodeRows.Pairwise (fun r r' => r.pattern &&& (r.mask &&& r'.mask) ≠ r'.pattern &&& (r.mask &&& r'.mask)) := by decide

/-- 30_encoding.md R92, each word written out bit by bit. -/
theorem test_decode_modinv : decode 0b00000000000000000000000000000001#32 = .ok .modinv := by decide
theorem test_decode_padd : decode 0b00000000000000000000000000000010#32 = .ok .padd := by decide
theorem test_decode_pdbl : decode 0b00000000000000000000000000000011#32 = .ok .pdbl := by decide
theorem test_decode_smul : decode 0b00000000000000000000000000000100#32 = .ok .smul := by decide
theorem test_decode_oncurve : decode 0b00000000000000000000000000000101#32 = .ok .oncurve := by decide
theorem test_decode_affenc : decode 0b00000000000000000000000000000110#32 = .ok .affenc := by decide
theorem test_decode_affdec : decode 0b00000000000000000000000000000111#32 = .ok .affdec := by decide
/-- 30_encoding.md R93: 0, 8, and a command word with a high bit set are illegal. -/
theorem test_decode_illegal : decode 0#32 = .error (.illegalCmd 0#32) ∧ decode 8#32 = .error (.illegalCmd 8#32) ∧
    decode 0x80000001#32 = .error (.illegalCmd 0x80000001#32) := by decide
/-- 20_memory.md R69: the least significant byte comes first. -/
theorem test_decode_bytes : decodeBytes [0x07#8, 0#8, 0#8, 0#8, 0xAA#8] = .ok (.affdec, [0xAA#8]) ∧
    decodeBytes [0#8, 0#8, 0#8, 0x07#8] = .error (.illegalCmd 0x07000000#32) ∧
    decodeBytes [0x07#8, 0#8, 0#8] = .error (.fewerThanFourBytes 3) := by decide
theorem test_decode_table_word : decodeTableWord 32 4 = some .smul ∧ decodeTableWord 32 0 = none := by decide
/-- The word placed by `withFetchWord` runs as the first command after reset: MODINV with MOD = 0 (95_test_vectors.md M1). -/
theorem test_first_command : readOut (step (State.reset.withFetchWord 32 1)) = some (0x32, 0, 0, 0) := by decide

/-! ## The commands, one step each -/

/-- 95_test_vectors.md M1: −3 modulo 7. -/
theorem test_modinv : readOut (exec .modinv (idle (modVal 7 0xFFFFFFFD) 0 [])) = some (0x02, 2, 0, 0) := by decide
/-- 95_test_vectors.md M1: 2 modulo 2^32 − 1. -/
theorem test_modinv_wide : readOut (exec .modinv (idle (modVal 0xFFFFFFFF 2) 0 [])) = some (0x02, 0x80000000, 0, 0) := by decide
/-- 95_test_vectors.md S3. -/
theorem test_affenc : readOut (exec .affenc (idle (affine 7 6 0x5A) 0 [])) = some (0x02, 0x5A, 0, 0) := by decide
/-- 41_affine.md R144: a space passes; 30_encoding.md R105. -/
theorem test_affenc_space : readOut (exec .affenc (idle (affine 7 6 0x20) 0 [])) = some (0x02, 0x20, 0, 0) := by decide
/-- 41_affine.md R146, example. -/
theorem test_affdec : readOut (exec .affdec (idle (affine 7 6 0x47) 0 [])) = some (0x02, 0x41, 0, 0) := by decide
/-- 95_test_vectors.md S14. -/
theorem test_affdec_no_inverse : readOut (exec .affdec (idle (affine 13 6 0x20) 0 [])) = some (0x12, 0, 0, 0) := by decide
/-- 42_ecc_point.md R162, example, and R163: `(5, 2)`. -/
theorem test_oncurve : readOut (exec .oncurve (idle (curve17 5 1 0 0 0 0) 0 [])) = some (0x02, 1, 0, 0) := by decide
theorem test_oncurve_off : readOut (exec .oncurve (idle (curve17 5 2 0 0 0 0) 0 [])) = some (0x02, 0, 0, 0) := by decide
/-- 42_ecc_point.md R168, example. -/
theorem test_padd : readOut (exec .padd (idle (curve17 5 1 6 3 0 0) 0 [])) = some (0x02, 10, 6, 0) := by decide
/-- 42_ecc_point.md R175, R166: `(1, 1) + (2, 5)` gives `(13, 2)`, and INVALID_POINT with PCHK = 1. -/
theorem test_padd_off_curve : readOut (exec .padd (idle (curve17 1 1 2 5 0 0) 0 [])) = some (0x02, 13, 2, 0) ∧
    readOut (exec .padd (idle (curve17 1 1 2 5 0 0) 2 [])) = some (0x22, 0, 0, 0) := by decide
/-- 42_ecc_point.md R172, example. -/
theorem test_pdbl : readOut (exec .pdbl (idle (curve17 5 1 0 0 0 0) 0 [])) = some (0x02, 6, 3, 0) := by decide
/-- 42_ecc_point.md R175: the doubling of `(22, 18)` gives `(6, 3)`. -/
theorem test_pdbl_unreduced : readOut (exec .pdbl (idle (curve17 22 18 0 0 0 0) 0 [])) = some (0x02, 6, 3, 0) := by decide
/-- 43_ecc_smul.md R192, example: 3·(5, 1). -/
theorem test_smul : readOut (exec .smul (idle (curve17 5 1 0 0 0 3) 0 [])) = some (0x02, 10, 6, 0) := by decide
/-- 43_ecc_smul.md R193: K = 0. -/
theorem test_smul_zero : readOut (exec .smul (idle (curve17 5 1 0 0 0 0) 0 [])) = some (0x02, 0, 0, 1) := by decide
/-- 30_encoding.md R93, R99. -/
theorem test_illegal : readOut (step (busy 0x80000001 (curve17 5 1 0 0 0 0) 0 [])) = some (0x42, 0, 0, 0) := by decide

/-! ## The window -/

/-- 10_state.md R21: an unimplemented bit is dropped. -/
theorem test_write_ctrl : readOut (step (idle (modVal 0 0) 0 [.write 0x00 4 0xFFFFFFFF])) = some (0, 0, 0, 0) ∧
    readReg (storeReg .ctrl 0xFFFFFFFF State.reset) .ctrl = 3 := by decide
/-- 70_reset_and_hazards.md R260: dropped, WERR set. -/
theorem test_busy_lock : readOut (step (busy 1 (modVal 26 7) 0 [.write 0x10 4 5])) = some (0x101, 0, 0, 0) := by decide
/-- 10_state.md R29: W1C of DONE. -/
theorem test_ack : readReg (windowWrite 0x08 2 { State.reset with status := ⟨false, true, 1, true⟩ }) .status = 0x110 := by decide
/-- 20_memory.md R73: a write to VAL on the edge of the completion is dropped, and the completion follows. -/
theorem test_edge_order : readOut (clockEdge ⟨false, true, true, 0x0D, 99, true⟩ (busy 1 (modVal 26 7) 0 [])) =
    some (0x102, 15, 0, 0) := by decide
/-- 70_reset_and_hazards.md R251: reset on the edge of a completion. -/
theorem test_reset_wins : clockEdge ⟨true, true, true, 0x0D, 99, true⟩ (busy 1 (modVal 26 7) 0 []) = .next State.reset := rfl
/-- 30_encoding.md R107: `MOVR P2` after `(5, 1) + (6, 3)`, kept P1INF. -/
theorem test_movr2 :
    (match programEncoding (List.replicate 6 false) [.movr2] 1 { State.reset with results := ⟨10, 6, 0⟩ } with
      | .next l => l
      | .fault _ => []
      | .refused _ => []) =
    [(false, 0x50, none), (false, 0x54, none), (false, 0x58, none), (true, 0x28, some 10), (true, 0x2C, some 6),
      (true, 0x30, some 1)] := by decide
/-- The transactions of a run, and whether it has ended. -/
def ranTo (o : Host.Outcome HostRun Fault Refusal) : List Transaction × Bool :=
  match o with
  | .next h => (transactions h, h.todo.isEmpty)
  | .fault _ => ([], false)
  | .refused _ => ([], false)
/-- 95_test_vectors.md P1, its transactions with one more STATUS read that shows BUSY. -/
theorem test_program_P1 :
    ranTo (runLines [false, false, false, false, true, false] [.wr .val 7, .wr .mod 26, .cmd .modinv, .wait, .rd .res0] 0
      State.reset) =
    ([.write 0x34 7, .write 0x10 26, .write 0x04 1, .read 0x08 1, .read 0x08 2, .read 0x50 15], true) := by decide
/-- 30_encoding.md R106: WAIT reads once when DONE = 1 stands already, and goes on reading while it does not come. -/
theorem test_wait :
    ranTo (runLines [false, false] [.wait] 0 { State.reset with status := ⟨false, true, 0, false⟩ }) = ([.read 0x08 2], true) ∧
    ranTo (runLines [false, true, false] [.wait] 0 State.reset) = ([.read 0x08 0, .read 0x08 0, .read 0x08 0], false) := by decide
/-- 70_reset_and_hazards.md R260, R266: a line between CMD and WAIT meets a busy block or, after the completion, an idle one. -/
theorem test_line_between :
    ranTo (runLines [false, false, true] [.cmd .modinv, .wr .val 5, .wait] 0 State.reset) =
      ([.write 0x04 1, .write 0x34 5, .read 0x08 0x132], true) ∧
    ranTo (runLines [false, true, false] [.cmd .modinv, .wr .val 5, .wait] 0 State.reset) =
      ([.write 0x04 1, .write 0x34 5, .read 0x08 0x32], true) := by decide

/-! ## Witnesses for the hypotheses of the statements -/

/-- Reset and idle pins, a busy block, a queue with a reset in front. -/
theorem test_witness_ResetLeavesEveryRegisterZero : State.reset.operands.mod = 0 := by decide
theorem test_witness_ResetBeatsEverything :
    (Pins.mk true true true 1 7 true).rst = true ∧
    (busy 1 (modVal 26 7) 0 [.reset, .completion]).events = .reset :: [.completion] ∧
    ((busy 1 (modVal 26 7) 0 []).status.busy = true ∧ ∃ t, step (busy 1 (modVal 26 7) 0 []) = .next t ∧ t.status.busy = false) ∧
    ((busy 1 (modVal 26 7) 0 [.reset]).status.busy = true ∧
      ∃ t, step (busy 1 (modVal 26 7) 0 [.reset]) = .next t ∧ t.status.busy = false) :=
  ⟨by decide, by decide, ⟨by decide, _, rfl, by decide⟩, by decide, _, rfl, by decide⟩
theorem test_witness_ResetHoldsTheBlock : (Pins.mk true true false 63 0 false).rst = true ∧
    (Pins.mk true true false 63 0 false).req = true ∧ (Pins.mk true true false 63 0 false).we = false := by decide
theorem test_witness_HostReadChangesNothing :
    ((0x00 : Nat) < 0x100 ∧ 0x00 % 4 = 0 ∧ (idle (modVal 26 7) 0 [.read 0x00 4]).events = .read 0x00 4 :: [] ∧
      regOffset .ctrl = 0x00) ∧
    ((0xFC : Nat) < 0x100 ∧ 0xFC % 4 = 0 ∧ (busy 1 (modVal 26 7) 0 [.read 0xFC 4]).events = .read 0xFC 4 :: [] ∧
      ∀ r ∈ allRegs, regOffset r ≠ 0xFC) := by decide
theorem test_witness_UnmappedOffsetsReadZeroAndIgnoreWrites :
    (∀ off ∈ [0x0C, 0x44, 0x4C, 0x5C, 0xFC], off ∈ [0x0C, 0x44, 0x48, 0x4C] ∨ (0x5C ≤ off ∧ off ≤ 0xFC ∧ off % 4 = 0)) ∧
    (idle (modVal 26 7) 0 [.read 0x0C 4]).events = .read 0x0C 4 :: [] ∧
    ((idle (modVal 26 7) 0 [.write 0x5C 4 1]).events = .write 0x5C 4 1 :: [] ∧
      (idle (modVal 26 7) 0 [.write 0x5C 4 1]).status.busy = false) ∧
    ((busy 1 (modVal 26 7) 0 [.write 0xFC 4 1]).events = .write 0xFC 4 1 :: [] ∧
      (busy 1 (modVal 26 7) 0 [.write 0xFC 4 1]).status.busy = true) := by decide
theorem test_witness_ReadOnlyBitsIgnoreWritesAndUnimplementedBitsReadZero :
    (idle (modVal 26 7) 0 [.write 0x50 4 1]).events = .write 0x50 4 1 :: [] ∧
    (idle (modVal 26 7) 0 [.write 0x50 4 1]).status.busy = false ∧
    (busy 1 (modVal 26 7) 0 [.write 0x58 4 1]).events = .write 0x58 4 1 :: [] ∧
    (busy 1 (modVal 26 7) 0 [.write 0x58 4 1]).status.busy = true ∧
    (busy 1 (modVal 26 7) 0 [.write 0x08 4 1]).events = .write 0x08 4 1 :: [] := by decide
theorem test_witness_OperandRegisterReadsBackWhatWasWritten :
    ((idle (modVal 26 7) 0 [.write 0x00 4 3]).status.busy = false ∧ Reg.ctrl ∈ writableRegs ∧
      (idle (modVal 26 7) 0 [.write 0x00 4 3]).events = .write (regOffset .ctrl) 4 3 :: []) ∧
    (Reg.chr ∈ writableRegs ∧ (idle (modVal 26 7) 0 [.write 0x40 4 255]).events = .write (regOffset .chr) 4 255 :: []) := by decide
theorem test_witness_BusyLockDropsEveryWriteButStatus :
    ((busy 1 (modVal 26 7) 0 [.write 0x00 4 3]).status.busy = true ∧
      (busy 1 (modVal 26 7) 0 [.write 0x00 4 3]).events.head? ≠ some .reset ∧
      goesOn (step (busy 1 (modVal 26 7) 0 [.write 0x00 4 3])) = true) ∧
    ((busy 1 (modVal 26 7) 0 [.write 0x08 4 2]).events = .write 0x08 4 2 :: []) ∧
    ((busy 1 (modVal 26 7) 0 [.write 0x04 4 2]).events = .write 0x04 4 2 :: [] ∧
      (busy 1 (modVal 26 7) 0 [.write 0x04 4 2]).status.busy = true) ∧
    ((idle (modVal 26 7) 0 [.write 0x04 4 2]).events = .write 0x04 4 2 :: [] ∧
      (idle (modVal 26 7) 0 [.write 0x04 4 2]).status.busy = false) ∧
    (Reg.chr ∈ writableRegs ∧ 0x40 = regOffset .chr) ∧
    ((0x50 : Nat) < 0x100 ∧ 0x50 % 4 = 0 ∧ 0x50 ≠ 0x08 ∧ 0x50 ≠ 0x04 ∧ ∀ r ∈ writableRegs, 0x50 ≠ regOffset r) := by decide
theorem test_witness_OnlyWholeAlignedWordsAreServed :
    (idle (modVal 26 7) 0 [.read 0x100 4]).events = .read 0x100 4 :: [] ∧
    (idle (modVal 26 7) 0 [.write 0xFF 4 0]).events = .write 0xFF 4 0 :: [] ∧ 0xFF % 4 ≠ 0 ∧
    (idle (modVal 26 7) 0 [.read 0xFC 2]).events = .read 0xFC 2 :: [] ∧ (0xFC : Nat) < 0x100 ∧ 0xFC % 4 = 0 := by decide
theorem test_witness_CommandBytesDecodeBack : Instr.wf .affdec = true ∧
    decodeBytes [7#8, 0#8, 0#8, 0#8, 9#8] = .ok (.affdec, [9#8]) := by decide
theorem test_witness_IssueSetsBusyAndLatchesTheWord :
    ((idle (modVal 26 7) 0 [.write 0x04 4 8]).events = .write 0x04 4 8 :: [] ∧
      (idle (modVal 26 7) 0 [.write 0x04 4 8]).status.busy = false) ∧
    ((busy 1 (modVal 26 7) 0 [.write 0x04 4 1]).events = .write 0x04 4 1 :: [] ∧
      (busy 1 (modVal 26 7) 0 [.write 0x04 4 1]).status.busy = true) := by decide
theorem test_witness_CompletionRunsTheCommandInFlight :
    (CompletionNext (busy 1 (modVal 26 7) 0 [.completion, .reset]) [.reset] ∧
      decode (busy 1 (modVal 26 7) 0 [.completion, .reset]).oplatch = .ok .modinv) ∧
    (CompletionNext (busy 7 (affine 7 6 0x47) 0 []) [] ∧ decode (busy 7 (affine 7 6 0x47) 0 []).oplatch = .ok .affdec) := by
  unfold CompletionNext
  decide
theorem test_witness_FetchedWordRunsNext : decodeTableWord 32 1 = some .modinv ∧ decodeTableWord 32 7 = some .affdec := by decide
theorem test_witness_IllegalWordEndsWithIllegalCmd :
    (CompletionNext (busy 0 (modVal 26 7) 0 []) [] ∧ (busy 0 (modVal 26 7) 0 []).oplatch.toNat = 0) ∧
    (CompletionNext (busy 8 (modVal 26 7) 0 []) [] ∧ 8 ≤ (busy 8 (modVal 26 7) 0 []).oplatch.toNat) ∧
    goesOn (step (busy 7 (modVal 26 7) 0 [])) = true := by
  unfold CompletionNext
  decide
theorem test_witness_IdleBlockKeepsItsState :
    ((idle (modVal 26 7) 0 []).status.busy = false ∧ (idle (modVal 26 7) 0 []).events = []) ∧
    (idle (modVal 26 7) 0 [.completion]).events = .completion :: [] ∧ (idle (modVal 26 7) 0 [.work]).events = .work :: [] := by decide
theorem test_witness_FailedCommandChangesOnlyStatus :
    CompletionNext (busy 1 (modVal 26 13) 0 []) [] ∧
    ∃ t, step (busy 1 (modVal 26 13) 0 []) = .next t ∧ t.status.err ≠ 0 :=
  ⟨by unfold CompletionNext; decide, _, rfl, by decide⟩
theorem test_witness_ModinvGivesTheUniqueInverse :
    (idle (modVal 0 7) 0 []).operands.mod = 0 ∧
    ((idle (modVal 26 13) 0 []).operands.mod ≠ 0 ∧ Int.gcd (idle (modVal 26 13) 0 []).operands.val.toInt 26 ≠ 1) ∧
    ((idle (modVal 1 0) 0 []).operands.mod ≠ 0 ∧ Int.gcd (idle (modVal 1 0) 0 []).operands.val.toInt 1 = 1) := by decide
theorem test_witness_ModinvUsesOnlyTheResidue :
    (modVal 26 7).mod = (modVal 26 33).mod ∧ (modVal 26 7).mod ≠ 0 ∧
    (modVal 26 7).val.toInt % (modVal 26 7).mod.toNat = (modVal 26 33).val.toInt % (modVal 26 7).mod.toNat := by decide
theorem test_witness_ModinvCornerCases :
    (modVal 1 5).mod.toNat = 1 ∧
    ((modVal 7 0xFFFFFFF9).mod.toNat = 7 ∧ (modVal 7 0xFFFFFFF9).val.toInt % 7 = 0) ∧
    (modVal 26 27).val.toInt % 26 = 1 ∧ (modVal 26 0xFFFFFFFF).val.toInt % 26 = 26 - 1 ∧
    ((modVal 2 3).mod.toNat = 2 ∧ (modVal 2 3).val.toInt % 2 = 1) ∧ (modVal 2 4).val.toInt % 2 = 0 := by decide
theorem test_witness_ModinvWorkingValuesReachTheResult :
    ((modVal 26 7).mod ≠ 0 ∧ (workRounds 4 0x00000001#32 (modVal 26 7) (workStart 0x00000001#32 (modVal 26 7))).euclid.r1 = 0 ∧
      (workRounds 4 0x00000001#32 (modVal 26 7) (workStart 0x00000001#32 (modVal 26 7))).euclid.r0 = 1) ∧
    ((modVal 26 13).mod ≠ 0 ∧ (workRounds 1 0x00000001#32 (modVal 26 13) (workStart 0x00000001#32 (modVal 26 13))).euclid.r1 = 0 ∧
      (workRounds 1 0x00000001#32 (modVal 26 13) (workStart 0x00000001#32 (modVal 26 13))).euclid.r0 ≠ 1) := by decide
theorem test_witness_AffencMapsLettersAndPassesOthers :
    (affine 7 6 0x41).chr.toNat = 0x41 ∧ (affine 7 6 0x5A).chr.toNat = 0x5A ∧ (affine 7 6 0x61).chr.toNat = 0x61 ∧
    (affine 7 6 0x7A).chr.toNat = 0x7A ∧ (affine 7 6 0x5B).chr.toNat = 0x5B := by decide
theorem test_witness_AffdecInvertsTheMapOrHasNoInverse :
    Int.gcd (affine 13 6 0x41).afa.toInt 26 ≠ 1 ∧ Int.gcd (affine 7 6 0x41).afa.toInt 26 = 1 ∧
    (affine 7 6 0x5A).chr.toNat = 0x5A ∧ (affine 7 6 0x7A).chr.toNat = 0x7A ∧ (affine 7 6 0x40).chr.toNat = 0x40 := by decide
theorem test_witness_AffineRoundTripGivesUpperCase :
    Int.gcd (affine 25 6 0x7A).afa.toInt 26 = 1 ∧ (-1 : Int) % 26 = 25 := by decide
theorem test_witness_TextRoundTripGivesUpperCase :
    (idle (affine 0 0 0) 0 []).status.busy = false ∧ Int.gcd (7#32 : Word).toInt 26 = 1 := by decide
/-- 95_test_vectors.md P3: 'A', 'b' with the key (7, 6) give 'G', 'N', and the last read returns 'N'; the waits differ. -/
theorem test_transform_reads_res0 :
    (match transform .affenc 7 6 [0x41, 0x62] (fun n => n) (idle (affine 0 0 0) 0 []) with
      | .next (out, err, t) => (out, err, t.rdata)
      | .fault _ => ([], 15, 0)
      | .refused _ => ([], 15, 0)) = ([0x47, 0x4E], 0, 0x4E) := by decide
theorem test_witness_OncurveTestsTheCongruence :
    (modVal 0 0).mod = 0 ∧ ((curve17 5 1 0 0 0 0).mod ≠ 0 ∧ P1OnCurve (curve17 5 1 0 0 0 0)) ∧ P1OnCurve (curve17 5 2 0 0 1 0) ∧
    ¬ P1OnCurve (curve17 5 2 0 0 0 0) := by
  unfold P1OnCurve inf1 OnTheCurve
  decide
theorem test_witness_PaddIdentityReturnsTheOtherOperand :
    (PaddReady (idle (curve17 5 1 6 3 3 0) 2 []) ∧ inf1 (curve17 5 1 6 3 3 0) ∧ inf2 (curve17 5 1 6 3 3 0)) ∧
    (PaddReady (idle (curve17 5 2 6 3 1 0) 2 []) ∧ inf1 (curve17 5 2 6 3 1 0) ∧ ¬ inf2 (curve17 5 2 6 3 1 0)) ∧
    (PaddReady (idle (curve17 22 18 6 3 2 0) 0 []) ∧ ¬ inf1 (curve17 22 18 6 3 2 0) ∧ inf2 (curve17 22 18 6 3 2 0)) := by
  unfold PaddReady PchkOn P1OnCurve P2OnCurve inf1 inf2 OnTheCurve
  decide
theorem test_witness_PaddOfInversePointsIsInf :
    (PaddReady (idle (curve17 5 1 5 16 0 0) 2 []) ∧ ¬ inf1 (curve17 5 1 5 16 0 0) ∧ ¬ inf2 (curve17 5 1 5 16 0 0) ∧
      (curve17 5 1 5 16 0 0).x1 = (curve17 5 1 5 16 0 0).x2 ∧ (curve17 5 1 5 16 0 0).y1 ≠ (curve17 5 1 5 16 0 0).y2) ∧
    (PaddReady (idle (curve17 5 0 5 0 0 0) 0 []) ∧ (curve17 5 0 5 0 0 0).x1 = (curve17 5 0 5 0 0 0).x2 ∧
      (curve17 5 0 5 0 0 0).y1 = 0) := by
  unfold PaddReady PchkOn P1OnCurve P2OnCurve inf1 inf2 OnTheCurve
  decide
theorem test_witness_PaddOfDistinctXFollowsTheChord :
    (PaddReady (idle (curve17 5 1 6 3 0 0) 2 []) ∧ ¬ inf1 (curve17 5 1 6 3 0 0) ∧ ¬ inf2 (curve17 5 1 6 3 0 0) ∧
      (curve17 5 1 6 3 0 0).x1 ≠ (curve17 5 1 6 3 0 0).x2 ∧ Int.gcd (6 - 5) 17 = 1) ∧
    (PaddReady (idle (curve17 5 1 22 1 0 0) 2 []) ∧ (curve17 5 1 22 1 0 0).x1 ≠ (curve17 5 1 22 1 0 0).x2 ∧
      Int.gcd (22 - 5) 17 ≠ 1) := by
  unfold PaddReady PchkOn P1OnCurve P2OnCurve inf1 inf2 OnTheCurve
  decide
theorem test_witness_PaddOfEqualPointsFollowsTheTangent :
    (PaddReady (idle (curve17 5 1 5 1 0 0) 2 []) ∧ ¬ inf1 (curve17 5 1 5 1 0 0) ∧ ¬ inf2 (curve17 5 1 5 1 0 0) ∧
      (curve17 5 1 5 1 0 0).x1 = (curve17 5 1 5 1 0 0).x2 ∧ (curve17 5 1 5 1 0 0).y1 = (curve17 5 1 5 1 0 0).y2 ∧
      (curve17 5 1 5 1 0 0).y1 ≠ 0 ∧ Int.gcd (2 * 1) 17 = 1) ∧
    (PaddReady (idle (curve17 5 17 5 17 0 0) 0 []) ∧ (curve17 5 17 5 17 0 0).y1 ≠ 0 ∧ Int.gcd (2 * 17) 17 ≠ 1) := by
  unfold PaddReady PchkOn P1OnCurve P2OnCurve inf1 inf2 OnTheCurve
  decide
theorem test_witness_PdblDoublesThePoint :
    (modVal 0 0).mod.toNat = 0 ∧
    (PchkOn (idle (curve17 5 2 0 0 0 0) 2 []) ∧ ¬ P1OnCurve (curve17 5 2 0 0 0 0)) ∧
    (OnePointReady (idle (curve17 5 2 0 0 1 0) 2 []) ∧ inf1 (curve17 5 2 0 0 1 0)) ∧
    (OnePointReady (idle (curve17 5 0 0 0 0 0) 0 []) ∧ (curve17 5 0 0 0 0 0).y1.toNat = 0) ∧
    (OnePointReady (idle (curve17 5 17 0 0 0 0) 0 []) ∧ ¬ inf1 (curve17 5 17 0 0 0 0) ∧ Int.gcd (2 * 17) 17 ≠ 1) ∧
    (OnePointReady (idle (curve17 5 1 0 0 0 0) 2 []) ∧ ¬ inf1 (curve17 5 1 0 0 0 0) ∧ Int.gcd (2 * 1) 17 = 1) := by
  unfold OnePointReady PchkOn P1OnCurve inf1 OnTheCurve
  decide
theorem test_witness_PdblIsPaddOfThePointWithItself :
    (curve17 5 1 5 1 0 0).x2 = (curve17 5 1 0 0 0 0).x1 ∧ (curve17 5 1 5 1 0 0).y2 = (curve17 5 1 0 0 0 0).y1 ∧
    (inf1 (curve17 5 1 5 1 0 0) ↔ inf1 (curve17 5 1 0 0 0 0)) ∧ (inf2 (curve17 5 1 5 1 0 0) ↔ inf1 (curve17 5 1 0 0 0 0)) := by
  unfold inf1 inf2
  decide
theorem test_witness_PaddCommutes :
    (curve17 6 3 5 1 0 0).x1 = (curve17 5 1 6 3 0 0).x2 ∧ (curve17 6 3 5 1 0 0).y1 = (curve17 5 1 6 3 0 0).y2 ∧
    (inf1 (curve17 6 3 5 1 0 0) ↔ inf2 (curve17 5 1 6 3 0 0)) ∧ (inf2 (curve17 6 3 5 1 0 0) ↔ inf1 (curve17 5 1 6 3 0 0)) := by
  unfold inf1 inf2
  decide
theorem test_witness_PaddResultIsOnTheCurve :
    (curve17 5 1 6 3 0 0).mod.toNat.Prime ∧ 2 < (curve17 5 1 6 3 0 0).mod.toNat ∧ P1OnCurve (curve17 5 1 6 3 0 0) ∧
    P2OnCurve (curve17 5 1 6 3 0 0) ∧ P1Reduced (curve17 5 1 6 3 0 0) ∧ P2Reduced (curve17 5 1 6 3 0 0) := by
  refine ⟨by show Nat.Prime 17; norm_num, ?_⟩
  unfold P1OnCurve P2OnCurve P1Reduced P2Reduced inf1 inf2 OnTheCurve
  decide
theorem test_witness_PrimeModulusNeverLacksAnInverse :
    (curve17 16 0 0 16 0 7).mod.toNat.Prime ∧ 2 < (curve17 16 0 0 16 0 7).mod.toNat ∧ P1Reduced (curve17 16 0 0 16 0 7) ∧
    P2Reduced (curve17 16 0 0 16 0 7) ∧ goesOn (exec .padd (idle (curve17 16 0 0 16 0 7) 0 [])) = true := by
  refine ⟨by show Nat.Prime 17; norm_num, ?_⟩
  unfold P1Reduced P2Reduced inf1 inf2
  decide
theorem test_witness_SmulCommitsTheDoubleAndAddLoop :
    (modVal 0 0).mod = 0 ∧ (PchkOn (idle (curve17 5 2 0 0 0 3) 2 []) ∧ ¬ P1OnCurve (curve17 5 2 0 0 0 3)) ∧
    OnePointReady (idle (curve17 5 1 0 0 0 3) 2 []) ∧ OnePointReady (idle (curve17 5 1 0 0 0 19) 2 []) ∧
    OnePointReady (idle (curve17 5 17 0 0 0 1) 0 []) := by
  unfold OnePointReady PchkOn P1OnCurve inf1 OnTheCurve
  decide
theorem test_witness_SmulOfZeroOneAndInfinity :
    (OnePointReady (idle (curve17 5 1 0 0 0 0) 2 []) ∧ (curve17 5 1 0 0 0 0).k = 0) ∧
    (OnePointReady (idle (curve17 5 2 0 0 1 9) 2 []) ∧ inf1 (curve17 5 2 0 0 1 9)) ∧
    (OnePointReady (idle (curve17 5 1 0 0 0 1) 2 []) ∧ ¬ inf1 (curve17 5 1 0 0 0 1) ∧ Int.gcd (2 * 1) 17 = 1) ∧
    (OnePointReady (idle (curve17 5 0 0 0 0 1) 0 []) ∧ (curve17 5 0 0 0 0 1).y1 = 0) ∧
    (OnePointReady (idle (curve17 5 17 0 0 0 1) 0 []) ∧ (curve17 5 17 0 0 0 1).y1 ≠ 0 ∧ Int.gcd (2 * 17) 17 ≠ 1) := by
  unfold OnePointReady PchkOn P1OnCurve inf1 OnTheCurve
  decide
theorem test_witness_SmulWorkingValuesReachTheResult :
    OnePointReady (idle (curve17 5 1 0 0 0 3) 2 []) ∧
    (workRounds 2 4#32 (curve17 5 1 0 0 0 3) (workStart 4#32 (curve17 5 1 0 0 0 3))).scalar = ⟨0, .aff 10 6, .aff 3 1⟩ ∧
    (workRounds 0 4#32 (curve17 5 1 0 0 0 0) (workStart 4#32 (curve17 5 1 0 0 0 0))).scalar = ⟨0, .inf, .aff 5 1⟩ := by
  unfold OnePointReady PchkOn P1OnCurve inf1 OnTheCurve
  decide
theorem test_witness_SmulIsAdditiveInTheScalar :
    PrimeCurve (curve17 5 1 0 0 0 0) ∧ P1OnCurve (curve17 5 1 0 0 0 0) ∧ P1Reduced (curve17 5 1 0 0 0 0) ∧
    (5#32).toNat + (0xFFFFFFFA#32).toNat < 2 ^ 32 := by
  refine ⟨⟨by show Nat.Prime 17; norm_num, by decide, by decide⟩, ?_⟩
  unfold P1OnCurve P1Reduced inf1 OnTheCurve
  decide
theorem test_witness_KeyExchangeSecretsAgree :
    PrimeCurve (curve17 5 1 0 0 0 0) ∧ P1OnCurve (curve17 5 1 0 0 0 0) ∧ P1Reduced (curve17 5 1 0 0 0 0) := by
  refine ⟨⟨by show Nat.Prime 17; norm_num, by decide, by decide⟩, ?_⟩
  unfold P1OnCurve P1Reduced inf1 OnTheCurve
  decide
theorem test_witness_BadModulusIsTestedFirst :
    ((modVal 0 7).mod = 0 ∧ Instr.smul ∈ [Instr.modinv, .oncurve, .padd, .pdbl, .smul]) ∧
    ∃ t, exec .smul (idle (modVal 0 7) 2 []) = .next t ∧ t.status.err = 3 := ⟨by decide, _, rfl, by decide⟩
theorem test_witness_InvalidPointNeedsThePointCheck :
    (∃ t, exec .padd (idle (curve17 5 1 6 4 0 0) 2 []) = .next t ∧ t.status.err = 2) ∧
    ∃ t, exec .smul (idle (curve17 5 2 0 0 0 1) 2 []) = .next t ∧ t.status.err = 2 := ⟨⟨_, rfl, by decide⟩, _, rfl, by decide⟩
theorem test_witness_EachCommandEndsOnlyWithItsErrors :
    (∃ t, exec .affdec (idle (affine 13 6 0x41) 0 []) = .next t ∧ t.status.err ≠ 0) ∧
    ∃ t, exec .pdbl (idle (curve17 5 17 0 0 0 0) 0 []) = .next t ∧ t.status.err ≠ 0 := ⟨⟨_, rfl, by decide⟩, _, rfl, by decide⟩
theorem test_witness_StatusTakesOnlyItsListedValues :
    StatusListed (busy 1 (modVal 26 13) 0 []) ∧ goesOn (step (busy 1 (modVal 26 13) 0 [])) = true := by
  unfold StatusListed
  decide
theorem test_witness_InfinityResultKeepsZeroCoordinates :
    ResultsCanonical (busy 4 (curve17 5 1 0 0 0 0) 0 []) ∧
    ∃ t, step (busy 4 (curve17 5 1 0 0 0 0) 0 []) = .next t ∧ t.results.rinf = 1 :=
  ⟨by unfold ResultsCanonical; decide, _, rfl, by decide⟩
theorem test_witness_WorkingValuesTrackTheOperands :
    WorkTracksOperands (busy 1 (modVal 26 7) 0 [.work]) ∧ (busy 1 (modVal 26 7) 0 [.work]).status.busy = true ∧
    goesOn (step (busy 1 (modVal 26 7) 0 [.work])) = true := ⟨fun _ => ⟨0, rfl⟩, by decide, by decide⟩
theorem test_witness_OperandsChangeOnlyByAnIdleHostWrite :
    Reg.mod ∈ writableRegs ∧
    (∃ t, step (idle (modVal 26 7) 0 [.write 0x10 4 5]) = .next t ∧
      readReg t .mod ≠ readReg (idle (modVal 26 7) 0 [.write 0x10 4 5]) .mod) ∧
    ∃ t, step (busy 1 (modVal 26 7) 0 [.reset]) = .next t ∧ readReg t .mod ≠ readReg (busy 1 (modVal 26 7) 0 [.reset]) .mod :=
  ⟨by decide, ⟨_, rfl, by decide⟩, _, rfl, by decide⟩
theorem test_witness_ResultsChangeOnlyAtASuccessfulCompletion :
    ∃ t, step (busy 1 (modVal 26 7) 0 []) = .next t ∧ t.results ≠ (busy 1 (modVal 26 7) 0 []).results :=
  ⟨_, rfl, by decide⟩
theorem test_witness_OutcomeDependsOnlyOnTheCommandsOperands :
    commandView .padd (idle (curve17 5 1 6 3 2 0) 0 []) = commandView .padd (busy 1 (curve17 5 1 7 9 2 8) 1 []) := by decide
theorem test_witness_IrqIsIeAndDone :
    (CompletionNext (busy 1 (modVal 26 7) 1 []) [] ∧ goesOn (step (busy 1 (modVal 26 7) 1 [])) = true) ∧
    (idle (modVal 26 7) 1 [.write 0x08 4 2]).events = .write 0x08 4 2 :: [] ∧ (2#32).getLsbD 1 = true ∧
    (idle (modVal 26 7) 1 [.write 0x04 4 1]).events = .write 0x04 4 1 :: [] ∧
    ({ idle (modVal 26 7) 0 [.write 0x00 4 1] with status := ⟨false, true, 0, false⟩ } : State).events = .write 0x00 4 1 :: [] ∧
    ({ idle (modVal 26 7) 0 [.write 0x00 4 1] with status := ⟨false, true, 0, false⟩ } : State).status.done = true ∧
    (1#32).getLsbD 0 = true := by
  unfold CompletionNext
  decide
theorem test_witness_WellFormedRequestsNeverStop :
    RequestsWellFormed (busy 1 (modVal 26 7) 0 [.read 0xFC 4, .write 0x00 4 0, .completion]) := by
  unfold RequestsWellFormed
  decide
theorem test_witness_EveryCommandEnds :
    RequestsWellFormed (busy 1 (modVal 26 7) 0 [.read 0xFC 4, .work]) ∧
    (busy 1 (modVal 26 7) 0 [.read 0xFC 4, .work]).status.busy = true := by
  unfold RequestsWellFormed
  decide
theorem test_witness_HostAccessComesBeforeTheCompletionOfItsEdge :
    (∀ p ∈ [Pins.mk false true false 2 0 true, Pins.mk false true true 0 5 true, Pins.mk false true true 6 5 true],
      p.rst = false ∧ p.req = true ∧ p.due = true) ∧
    (busy 1 (modVal 26 7) 0 []).status.busy = true ∧ (0#6 : BitVec 6) ≠ 2#6 := by decide
theorem test_witness_LatencyDoesNotChangeTheOutcome :
    (busy 1 (modVal 26 7) 0 []).status.busy = true ∧
    ∀ e ∈ ([.work, .read 0x00 4, .read 0xFC 4] : List Event), e = .work ∨ ∃ off, e = .read off 4 ∧ off < 0x100 ∧ off % 4 = 0 := by
  refine ⟨by decide, ?_⟩
  intro e he
  simp only [List.mem_cons, List.not_mem_nil, or_false] at he
  rcases he with rfl | rfl | rfl
  · exact .inl rfl
  · exact .inr ⟨0x00, rfl, by decide, by decide⟩
  · exact .inr ⟨0xFC, rfl, by decide, by decide⟩

end Sys2Proof.Tests
end

section
/-! PROOFS. Family 00_scope.md: between issue and completion the latency is not observable (R18; log entry 6). -/

namespace Sys2Proof.Machine

/-- What may happen between issue and completion: a well-formed read or one round of work (00_scope.md R18). -/
def ReadOrWork (e : Event) : Prop := e = .work ∨ ∃ off, e = .read off 4 ∧ off < 0x100 ∧ off % 4 = 0

/-- Events that answer a next state hand it to the events after them (20_memory.md R72). -/
theorem applyEvents_append {es : List Event} (fs : List Event) {s t : State} (h : applyEvents es s = .next t) :
    applyEvents (es ++ fs) s = applyEvents fs t := by
  induction es generalizing s with
  | nil => cases h; rfl
  | cons e es ih =>
    simp only [List.cons_append, applyEvents] at h ⊢
    cases he : applyEvent e s with
    | next u => exact ih (by simpa only [he] using h)
    | fault _ => simp [he] at h
    | refused _ => simp [he] at h

/-- Reads and rounds of work move nothing but the value last read and the working values (20_memory.md R68, 10_state.md R31). -/
theorem applyEvent_readOrWork {e : Event} (he : ReadOrWork e) {s : State} (hb : s.status.busy = true) :
    ∃ r k, applyEvent e s = .next { s with rdata := r, work := k } := by
  obtain rfl | ⟨off, rfl, hoff, halign⟩ := he
  · exact ⟨s.rdata, _, if_pos hb⟩
  · exact ⟨_, s.work, portCheck_wf (inWindow_iff.2 hoff) (wholeWord_iff.2 ⟨rfl, halign⟩) _⟩

theorem applyEvents_readOrWork {es : List Event} (hes : ∀ e ∈ es, ReadOrWork e) {s : State}
    (hb : s.status.busy = true) : ∃ r k, applyEvents es s = .next { s with rdata := r, work := k } := by
  induction es generalizing s with
  | nil => exact ⟨s.rdata, s.work, rfl⟩
  | cons e es ih =>
    obtain ⟨he, hes⟩ := List.forall_mem_cons.1 hes
    obtain ⟨r, k, h⟩ := applyEvent_readOrWork he hb
    obtain ⟨r', k', h'⟩ := ih hes (s := { s with rdata := r, work := k }) hb
    exact ⟨r', k', by simpa only [applyEvents, h] using h'⟩

/-- The outcome of the command in flight rests on OPLATCH, the operand registers and CTRL (30_encoding.md R96). -/
theorem latchOutcome_congr {s s' : State} (hl : s.oplatch = s'.oplatch) (ho : s.operands = s'.operands)
    (hc : s.ctrl = s'.ctrl) : latchOutcome s = latchOutcome s' := by
  unfold latchOutcome
  rw [hl]
  cases decode s'.oplatch with
  | ok i => exact commandOutcome_congr i ho hc
  | error _ => rfl

/-- A commit neither reads nor writes the value last read and the working values (30_encoding.md R96). -/
theorem commit_rdata_work_update (o : Except Err Results) (s : State) (r : Word) (k : Work) :
    commit o { s with rdata := r, work := k } = { commit o s with rdata := r, work := k } := by
  cases o <;> rfl

/-- The registers a completion writes do not depend on the value last read or the working values (10_state.md R31; log entry 6). -/
theorem completion_rdata_work_update (s : State) (r : Word) (k : Work) :
    completion { s with rdata := r, work := k } = .next { commit (latchOutcome s) s with rdata := r, work := k } := by
  have houtcome : latchOutcome { s with rdata := r, work := k } = latchOutcome s := latchOutcome_congr rfl rfl rfl
  rw [completion_eq_commit, commit_rdata_work_update, houtcome]

/-- Settles O60: what happens before the completion leaves the block busy and moves only fields no completion reads, so the
completion ends in the same registers. -/
theorem latencyDoesNotChangeTheOutcome : Obligations.LatencyDoesNotChangeTheOutcome := by
  intro s es hb hes
  obtain ⟨r, k, hrun⟩ := applyEvents_readOrWork hes hb
  have hlast : applyEvents [.completion] { s with rdata := r, work := k } =
      .next { commit (latchOutcome s) s with rdata := r, work := k } := by
    simp [applyEvents, applyEvent, hb, completion_rdata_work_update]
  exact ⟨_, _, (applyEvents_append _ hrun).trans hlast, completion_eq_commit s, rfl⟩

end Sys2Proof.Machine
end

section
/-! PROOFS. Family 10_state.md: the register map (R21 to R29), reset (R35), the operands and the outcome of a command (R37), what
changes which register (R34), `irq` (R36) and the working values (R31). -/

namespace Sys2Proof.Machine

open Sys2Proof.Claims

/-! ### Reading and writing the registers of the window -/

@[simp] theorem windowRead_regOffset (s : State) (r : Reg) : windowRead s (regOffset r) = readReg s r := by
  simp [windowRead]

/-- A register the host may write stands in the operand registers or in CTRL (R21). -/
theorem readReg_congr {s t : State} (ho : t.operands = s.operands) (hc : t.ctrl = s.ctrl) {r : Reg}
    (hr : r ∈ writableRegs) : readReg t r = readReg s r := by
  cases r with
  | cmd | status | res0 | res1 | rinf => simp [writableRegs] at hr
  | _ => simp only [readReg, ho, hc]

/-- Keeping the low `k` bits of a word is masking it. -/
theorem setWidth_setWidth_eq_and_mask (v : Word) {k : Nat} (hk : k ≤ 32) :
    (v.setWidth k).setWidth 32 = v &&& BitVec.ofNat 32 (2 ^ k - 1) := by
  have hle : 2 ^ k ≤ 2 ^ 32 := Nat.pow_le_pow_right (by omega) hk
  have hpos : 0 < 2 ^ k := Nat.two_pow_pos k
  have hmod : v.toNat % 2 ^ k < 2 ^ k := Nat.mod_lt _ hpos
  apply BitVec.eq_of_toNat_eq
  rw [BitVec.toNat_setWidth, BitVec.toNat_setWidth, BitVec.toNat_and, BitVec.toNat_ofNat,
    Nat.mod_eq_of_lt (a := 2 ^ k - 1) (by omega), Nat.and_two_pow_sub_one_eq_mod, Nat.mod_eq_of_lt (by omega)]

/-- A register keeps the implemented bits of what is stored in it (R21, R22, R27). -/
theorem readReg_storeReg_same {r : Reg} (hr : r ∈ writableRegs) (v : Word) (s : State) :
    readReg (storeReg r v s) r = v &&& implementedBits r := by
  have hall : v &&& 0xFFFFFFFF#32 = v := BitVec.and_allOnes
  cases r with
  | cmd | status | res0 | res1 | rinf => simp [writableRegs] at hr
  | ctrl | pinf => exact setWidth_setWidth_eq_and_mask v (k := 2) (by decide)
  | chr => exact setWidth_setWidth_eq_and_mask v (k := 8) (by decide)
  | _ => exact hall.symm

theorem readReg_storeReg_of_ne {r r' : Reg} (h : r' ≠ r) (v : Word) (s : State) :
    readReg (storeReg r v s) r' = readReg s r' := by
  cases r <;> cases r' <;> simp [readReg, storeReg] at h ⊢

theorem windowWrite_status (v : Word) (s : State) :
    windowWrite (regOffset .status) v s = { s with status := statusW1C v s.status } := rfl

theorem windowWrite_cmd_idle (v : Word) {s : State} (hb : s.status.busy = false) :
    windowWrite (regOffset .cmd) v s = issue v s := by
  unfold windowWrite
  rw [if_neg (by decide), hb]
  rfl

theorem windowWrite_writable_idle {r : Reg} (hr : r ∈ writableRegs) (v : Word) {s : State} (hb : s.status.busy = false) :
    windowWrite (regOffset r) v s = storeReg r v s := by
  have hstatus : regOffset r ≠ regOffset .status := fun h => by rw [regOffset_injective h] at hr; simp [writableRegs] at hr
  have hcmd : regOffset r ≠ regOffset .cmd := fun h => by rw [regOffset_injective h] at hr; simp [writableRegs] at hr
  simp [windowWrite, hstatus, hcmd, hb]

/-- A host write moves the operand registers and CTRL only by storing in a register while idle (70_reset_and_hazards.md R260). -/
theorem windowWrite_operands_ctrl (off : Nat) (v : Word) (s : State) :
    ((windowWrite off v s).operands = s.operands ∧ (windowWrite off v s).ctrl = s.ctrl) ∨
    ∃ r, off = regOffset r ∧ s.status.busy = false ∧ windowWrite off v s = storeReg r v s := by
  obtain ⟨_, h⟩ | ⟨_, _, h⟩ | ⟨_, _, h⟩ | ⟨r, hoff, _, _, hb, h⟩ | ⟨_, _, h⟩ := windowWrite_cases off v s
  case inr.inr.inr.inl => exact .inr ⟨r, hoff, hb, h⟩
  all_goals exact .inl (by rw [h]; exact ⟨rfl, rfl⟩)

/-! ### One step -/

theorem step_write_reg {s : State} {r : Reg} {v : Word} {rest : List Event} (h : s.events = .write (regOffset r) 4 v :: rest) :
    step s = .next (windowWrite (regOffset r) v { s with events := rest }) := by
  unfold step
  rw [h]
  exact wrEvent_next r v _

/-- An idle write of an operand register or CTRL (70_reset_and_hazards.md R260). -/
theorem step_write_writable_idle {s : State} {r : Reg} {v : Word} {rest : List Event} (hr : r ∈ writableRegs)
    (hb : s.status.busy = false) (h : s.events = .write (regOffset r) 4 v :: rest) :
    step s = .next (storeReg r v { s with events := rest }) := by
  rw [step_write_reg h, windowWrite_writable_idle hr v (s := { s with events := rest }) hb]

/-- An idle write of CMD is an issue (30_encoding.md R95). -/
theorem step_write_cmd_idle {s : State} {v : Word} {rest : List Event} (hb : s.status.busy = false)
    (h : s.events = .write (regOffset .cmd) 4 v :: rest) : step s = .next (issue v { s with events := rest }) := by
  rw [step_write_reg h, windowWrite_cmd_idle v (s := { s with events := rest }) hb]

/-- When the completion comes next, the step is the completion, with its event used up (30_encoding.md R96). -/
theorem step_of_completionNext {s : State} {rest : List Event} (h : CompletionNext s rest) :
    step s = completion { s with events := rest } := by
  obtain ⟨hb, he | ⟨he, rfl⟩⟩ := h
  · simp [step, he, applyEvent, hb]
  · have hs : { s with events := [] } = s := by rw [← he]
    simp [step, he, hb, hs]

/-- What a step can be, in five cases: nothing but the value last read moves, a host write, the completion, one round of work,
or a reset (R34). -/
theorem step_next_cases {s t : State} (h : step s = .next t) : ∃ rest,
    (∃ v, t = { s with events := rest, rdata := v }) ∨
    (∃ off v, s.events = .write off 4 v :: rest ∧ t = windowWrite off v { s with events := rest }) ∨
    (CompletionNext s rest ∧ t = commit (latchOutcome { s with events := rest }) { s with events := rest }) ∨
    (s.status.busy = true ∧ t = engineWork { s with events := rest }) ∨
    (s.events = .reset :: rest ∧ t = resetBlock { s with events := rest }) := by
  obtain ⟨e, rest, he, happly⟩ | ⟨he, hb, rfl⟩ | ⟨he, _, rfl⟩ := step_cases h
  · refine ⟨rest, ?_⟩
    obtain ⟨_, _, rfl, _, rfl⟩ | ⟨off, size, v, rfl, hwf, rfl⟩ | ⟨rfl, hb, rfl⟩ | ⟨rfl, hb, rfl⟩ | ⟨_, _, rfl⟩ |
      ⟨rfl, rfl⟩ := applyEvent_cases happly
    · exact .inl ⟨_, rfl⟩
    · simp only [Event.wf, Bool.and_eq_true, wholeWord_iff] at hwf
      obtain ⟨_, rfl, _⟩ := hwf
      exact .inr (.inl ⟨off, v, he, rfl⟩)
    · exact .inr (.inr (.inl ⟨⟨hb, .inl he⟩, rfl⟩))
    · exact .inr (.inr (.inr (.inl ⟨hb, rfl⟩)))
    · exact .inl ⟨s.rdata, rfl⟩
    · exact .inr (.inr (.inr (.inr ⟨he, rfl⟩)))
  · have hs : { s with events := [] } = s := by rw [← he]
    exact ⟨[], .inr (.inr (.inl ⟨⟨hb, .inr ⟨he, rfl⟩⟩, by rw [hs]⟩))⟩
  · exact ⟨t.events, .inl ⟨t.rdata, rfl⟩⟩

@[simp] theorem commit_status_busy (o : Except Err Results) (s : State) : (commit o s).status.busy = false := by
  cases o <;> rfl

@[simp] theorem commit_status_done (o : Except Err Results) (s : State) : (commit o s).status.done = true := by
  cases o <;> rfl

theorem errCode_ne_zero (e : Err) : errCode e ≠ 0 := by cases e <;> decide

/-! ### The working values -/

/-- An issue starts the rounds anew; a write that leaves a command in flight keeps OPLATCH, the operands and the working values
(R38). -/
theorem windowWrite_workTracksOperands (off : Nat) (v : Word) {s : State} (htracks : WorkTracksOperands s) :
    WorkTracksOperands (windowWrite off v s) := by
  intro hbusy
  obtain ⟨_, h⟩ | ⟨_, hb, h⟩ | ⟨_, _, h⟩ | ⟨r, _, _, _, hidle, h⟩ | ⟨_, _, h⟩ := windowWrite_cases off v s <;>
    rw [h] at hbusy ⊢
  · exact htracks hbusy
  · exact htracks hb
  · exact ⟨0, rfl⟩
  · rw [storeReg_status, hidle] at hbusy
    cases hbusy
  · exact htracks hbusy

/-- A work event of a running command is one round more (R31; log entry 6). -/
theorem engineWork_workTracksOperands {s : State} (hb : s.status.busy = true) (htracks : WorkTracksOperands s) :
    WorkTracksOperands (engineWork s) := by
  intro _
  obtain ⟨n, hn⟩ := htracks hb
  exact ⟨n + 1, congrArg (workRound s.oplatch s.operands) hn⟩

/-- Settles O51: host writes and work events keep the claim, a completion and a reset leave the block idle, and nothing else moves
what the claim is about. -/
theorem workingValuesTrackTheOperands : Obligations.WorkingValuesTrackTheOperands := by
  intro s t htracks hstep
  obtain ⟨rest, ⟨v, rfl⟩ | ⟨off, v, _, rfl⟩ | ⟨_, rfl⟩ | ⟨hb, rfl⟩ | ⟨_, rfl⟩⟩ := step_next_cases hstep
  · exact htracks
  · exact windowWrite_workTracksOperands off v (s := { s with events := rest }) htracks
  · intro hbusy
    simp at hbusy
  · exact engineWork_workTracksOperands (s := { s with events := rest }) hb htracks
  · intro hbusy
    exact absurd hbusy Bool.false_ne_true

/-- The scalar multiplier's part of the rounds of an SMUL (R31; log entry 6). -/
theorem workRounds_smul_scalar (n : Nat) (o : Operands) :
    (workRounds n (encode .smul) o (workStart (encode .smul) o)).scalar =
      (fun r => scalarWork r (curveA o) (modulus o))^[n] (scalarStart (uint o.k) (point1 o)) := by
  induction n with
  | zero => rfl
  | succ n ih =>
    rw [Function.iterate_succ_apply', ← ih]
    rfl

theorem scalarRound_k {r r' : Scalar} {a : Int} {p : Nat} (h : scalarRound r a p = .ok r') : r'.k = r.k / 2 := by
  unfold scalarRound at h
  split at h
  · cases h
  · split at h <;> cases h
    rfl

/-- One work event on the scalar multiplier either leaves it as it is or is one iteration of the loop (43_ecc_smul.md R190). -/
theorem scalarWork_cases (r : Scalar) (a : Int) (p : Nat) :
    scalarWork r a p = r ∨ (r.k ≠ 0 ∧ scalarRound r a p = .ok (scalarWork r a p)) := by
  unfold scalarWork
  split
  case isTrue => exact .inl rfl
  case isFalse hgo =>
    cases scalarRound r a p with
    | ok r' => exact .inr ⟨fun hk => hgo (.inl hk), rfl⟩
    | error e => exact .inl rfl

theorem scalarRun_of_k_eq_zero (fuel : Nat) {r : Scalar} (a : Int) (p : Nat) (h : r.k = 0) :
    scalarRun fuel r a p = .ok r.result := by
  cases fuel <;> simp [scalarRun, h]

theorem scalarRun_of_round {fuel : Nat} {r r' : Scalar} {a : Int} {p : Nat} (hk : r.k ≠ 0)
    (h : scalarRound r a p = .ok r') : scalarRun (fuel + 1) r a p = scalarRun fuel r' a p := by
  simp [scalarRun, hk, h]

/-- Work events that use up the scalar have run the loop of 43_ecc_smul.md R190 to its end. -/
theorem scalarRun_eq_of_scalarWork_iterate (a : Int) (p : Nat) (n : Nat) : ∀ (fuel : Nat) (r : Scalar), r.k ≤ fuel →
    ((fun r => scalarWork r a p)^[n] r).k = 0 →
    scalarRun fuel r a p = .ok ((fun r => scalarWork r a p)^[n] r).result := by
  induction n with
  | zero => exact fun fuel r _ hend => scalarRun_of_k_eq_zero fuel a p hend
  | succ n ih =>
    intro fuel r hfuel hend
    rw [Function.iterate_succ_apply] at hend ⊢
    obtain hsame | ⟨hk, hround⟩ := scalarWork_cases r a p
    · simp only [hsame] at hend ⊢
      exact ih fuel r hfuel hend
    · obtain ⟨fuel, rfl⟩ := Nat.exists_eq_add_one_of_ne_zero (n := fuel) (by omega)
      rw [scalarRun_of_round hk hround]
      exact ih fuel _ (by rw [scalarRound_k hround]; omega) hend

theorem modulo_eq_zero_iff {v : Int} {m : Nat} (hm : 0 < m) : modulo v m = 0 ↔ v % m = 0 := by
  simp [modulo_eq_iff hm, hm]

/-- The engine's curve check is the curve equation of 42_ecc_point.md R161. -/
theorem onCurve_decodePoint_iff {o : Operands} (hm : o.mod ≠ 0) (isInf : Bool) (x y : Word) :
    onCurve (decodePoint isInf x y) (curveA o) (curveB o) (modulus o) = true ↔
      isInf = true ∨ OnTheCurve o x.toNat y.toNat := by
  have hp : 0 < modulus o := Nat.pos_of_ne_zero (mt modulus_eq_zero_iff.1 hm)
  cases isInf with
  | true => simp [decodePoint, onCurve]
  | false =>
    have hpoly : (uint y : Int) * uint y - (uint x * uint x * uint x + curveA o * uint x + curveB o) =
        (y.toNat : Int) ^ 2 - ((x.toNat : Int) ^ 3 + o.ca.toInt * x.toNat + o.cb.toInt) := by
      simp only [uint, curveA, curveB, sint]
      ring
    simp only [decodePoint, onCurve, Bool.false_eq_true, if_false, false_or, beq_iff_eq, modulo_eq_zero_iff hp, hpoly]
    rfl

theorem pointsAccepted_of_onePointReady {s : State} (h : OnePointReady s) :
    pointsAccepted s [point1 s.operands] = true := by
  obtain ⟨hm, hcheck⟩ := h
  cases hc : pointCheck s with
  | false => simp [pointsAccepted, hc]
  | true =>
    have hon : onCurve (point1 s.operands) (curveA s.operands) (curveB s.operands) (modulus s.operands) = true :=
      (onCurve_decodePoint_iff hm _ _ _).2 (hcheck hc)
    simp [pointsAccepted, hon]

/-- Settles O43: the work events have run the loop of `ScalarMul` to its end, and past the prologue SMUL commits its result. -/
theorem smulWorkingValuesReachTheResult : Obligations.SmulWorkingValuesReachTheResult := by
  intro s n r hready hr hk
  have hmul : scalarMul (uint s.operands.k) (point1 s.operands) (curveA s.operands) (modulus s.operands) = .ok r.result := by
    have hrounds := (workRounds_smul_scalar n s.operands).symm.trans hr
    rw [← hrounds] at hk ⊢
    exact scalarRun_eq_of_scalarWork_iterate _ _ n _ _ le_rfl hk
  have hexec : exec .smul s = .next (commit (.ok (encodePoint r.result)) s) := by
    have hm : modulus s.operands ≠ 0 := mt modulus_eq_zero_iff.1 hready.1
    rw [exec_eq_commit, commandOutcome, smulOutcome, pointCommand_accepted hm (pointsAccepted_of_onePointReady hready), hmul]
  constructor
  · intro hinf
    rw [hexec, hinf]
    rfl
  · intro x y haff
    rw [hexec, haff]
    rfl

/-! ### What changes which register -/

/-- Settles O8: the step is one `storeReg`, which moves the written register alone. -/
theorem operandRegisterReadsBackWhatWasWritten : Obligations.OperandRegisterReadsBackWhatWasWritten := by
  intro s r v rest hb hr he
  exact ⟨_, step_write_writable_idle hr hb he, readReg_storeReg_same hr v _,
    fun r' hne => readReg_storeReg_of_ne hne v _, by simp⟩

/-- Settles O53: among the cases of a step only an idle write of a register and a reset move the operand registers and CTRL. -/
theorem operandsChangeOnlyByAnIdleHostWrite : Obligations.OperandsChangeOnlyByAnIdleHostWrite := by
  intro s t r hr hstep hchange
  obtain ⟨rest, ⟨v, rfl⟩ | ⟨off, v, he, rfl⟩ | ⟨_, rfl⟩ | ⟨_, rfl⟩ | ⟨he, _⟩⟩ := step_next_cases hstep
  · exact (hchange (readReg_congr rfl rfl hr)).elim
  · obtain ⟨ho, hc⟩ | ⟨r', rfl, hidle, h⟩ := windowWrite_operands_ctrl off v { s with events := rest }
    · exact (hchange (readReg_congr ho hc hr)).elim
    · obtain rfl : r' = r := by
        by_contra hne
        rw [h, readReg_storeReg_of_ne (Ne.symm hne)] at hchange
        exact hchange (readReg_congr rfl rfl hr)
      exact .inl ⟨hidle, v, rest, he⟩
  · exact (hchange (readReg_congr (commit_operands _ _) (commit_ctrl _ _) hr)).elim
  · exact (hchange (readReg_congr rfl rfl hr)).elim
  · exact .inr ⟨rest, he⟩

/-- Settles O54: among the cases of a step only a commit without error and a reset move the result registers. -/
theorem resultsChangeOnlyAtASuccessfulCompletion : Obligations.ResultsChangeOnlyAtASuccessfulCompletion := by
  intro s t hstep hchange
  obtain ⟨rest, ⟨v, rfl⟩ | ⟨off, v, _, rfl⟩ | ⟨hnext, rfl⟩ | ⟨_, rfl⟩ | ⟨he, _⟩⟩ := step_next_cases hstep
  · exact absurd rfl hchange
  · exact absurd (windowWrite_results ..) hchange
  · cases hout : latchOutcome { s with events := rest } with
    | ok res => exact .inl ⟨rfl, rfl, rest, hnext⟩
    | error e => simp [hout] at hchange
  · exact absurd rfl hchange
  · exact .inr ⟨rest, he⟩

/-! ### What a command reads -/

/-- What a command reads of a point (30_encoding.md R104). -/
def pointView (isInf : Bool) (x y : Word) : List (Option Word) := if isInf then [none, none] else [some x, some y]

/-- What a command with the point check reads of CB (R37). -/
def checkedView (s : State) : Option Word := if pointCheck s then some s.operands.cb else none

theorem commandView_oncurve (s : State) : commandView .oncurve s =
    [some s.operands.mod, some s.operands.ca, some s.operands.cb] ++
      pointView (p1Inf s.operands) s.operands.x1 s.operands.y1 := rfl

theorem commandView_padd (s : State) : commandView .padd s =
    [some s.operands.mod, some s.operands.ca, checkedView s] ++ pointView (p1Inf s.operands) s.operands.x1 s.operands.y1 ++
      pointView (p2Inf s.operands) s.operands.x2 s.operands.y2 := rfl

theorem commandView_pdbl (s : State) : commandView .pdbl s =
    [some s.operands.mod, some s.operands.ca, checkedView s] ++
      pointView (p1Inf s.operands) s.operands.x1 s.operands.y1 := rfl

theorem commandView_smul (s : State) : commandView .smul s =
    [some s.operands.mod, some s.operands.ca, some s.operands.k, checkedView s] ++
      pointView (p1Inf s.operands) s.operands.x1 s.operands.y1 := rfl

/-- What AFFENC and AFFDEC read fixes the key and the character (R25, R37). -/
theorem affine_eq_of_view {s s' : State} (h : commandView .affenc s = commandView .affenc s') :
    s.operands.afa = s'.operands.afa ∧ s.operands.afb = s'.operands.afb ∧ charCode s.operands = charCode s'.operands := by
  simp only [commandView, List.cons.injEq, Option.some.injEq] at h
  obtain ⟨ha, hb, hc, _⟩ := h
  have hchr : s.operands.chr = s'.operands.chr := by simpa using congrArg (BitVec.setWidth 8) hc
  exact ⟨ha, hb, congrArg BitVec.toNat hchr⟩

theorem pointView_length (isInf : Bool) (x y : Word) : (pointView isInf x y).length = 2 := by cases isInf <;> rfl

/-- What a command reads of a point fixes the point (30_encoding.md R104). -/
theorem decodePoint_congr {i i' : Bool} {x y x' y' : Word} (h : pointView i x y = pointView i' x' y') :
    decodePoint i x y = decodePoint i' x' y' := by
  cases i <;> cases i' <;> simp [pointView, decodePoint] at h ⊢
  simp [h]

/-- The point check looks at CA, CB and MOD, and at CB only when it is on (42_ecc_point.md R166). -/
theorem pointsAccepted_congr {s s' : State} (hmod : s.operands.mod = s'.operands.mod) (hca : s.operands.ca = s'.operands.ca)
    (hcb : checkedView s = checkedView s') (points : List Point) : pointsAccepted s points = pointsAccepted s' points := by
  unfold checkedView at hcb
  cases hc : pointCheck s <;> cases hc' : pointCheck s' <;> simp only [hc, hc'] at hcb
  · simp [pointsAccepted, hc, hc']
  · cases hcb
  · cases hcb
  · have hb : s.operands.cb = s'.operands.cb := Option.some.inj hcb
    simp [pointsAccepted, hc, hc', curveA, curveB, modulus, hmod, hca, hb]

theorem checkedModulus_congr {o o' : Operands} (h : o.mod = o'.mod) : checkedModulus o = checkedModulus o' := by
  unfold checkedModulus modulus
  rw [h]

theorem pointCommand_congr {s s' : State} (hmod : s.operands.mod = s'.operands.mod) (hca : s.operands.ca = s'.operands.ca)
    (hcb : checkedView s = checkedView s') (points : List Point) (arithmetic : Except Err Point) :
    pointCommand s points arithmetic = pointCommand s' points arithmetic := by
  unfold pointCommand
  rw [pointsAccepted_congr hmod hca hcb points, checkedModulus_congr hmod]

/-- The outcome of a command rests on what it reads (R37). -/
theorem commandOutcome_eq_of_view {i : Instr} {s s' : State} (h : commandView i s = commandView i s') :
    commandOutcome i s = commandOutcome i s' := by
  cases i with
  | modinv =>
    simp only [commandView, List.cons.injEq, Option.some.injEq] at h
    obtain ⟨hmod, hval, _⟩ := h
    simp only [commandOutcome, modinvOutcome, checkedModulus_congr hmod, hval]
  | affenc =>
    obtain ⟨ha, hb, hc⟩ := affine_eq_of_view h
    simp only [commandOutcome, affencOutcome, ha, hb, hc]
  | affdec =>
    obtain ⟨ha, hb, hc⟩ := affine_eq_of_view h
    simp only [commandOutcome, affdecOutcome, ha, hb, hc]
  | oncurve =>
    simp only [commandView_oncurve, List.cons_append, List.nil_append, List.cons.injEq, Option.some.injEq] at h
    obtain ⟨hmod, hca, hcb, hview⟩ := h
    have hpoint : point1 s.operands = point1 s'.operands := decodePoint_congr hview
    simp only [commandOutcome, oncurveOutcome, checkedModulus_congr hmod, curveA, curveB, hca, hcb, hpoint]
  | padd =>
    simp only [commandView_padd, List.cons_append, List.nil_append, List.cons.injEq, Option.some.injEq] at h
    obtain ⟨hmod, hca, hcb, hviews⟩ := h
    obtain ⟨hview1, hview2⟩ := List.append_inj hviews (by simp only [pointView_length])
    have hpoint1 : point1 s.operands = point1 s'.operands := decodePoint_congr hview1
    have hpoint2 : point2 s.operands = point2 s'.operands := decodePoint_congr hview2
    simp only [commandOutcome, paddOutcome, pointCommand_congr hmod hca hcb, curveA, modulus, hmod, hca, hpoint1, hpoint2]
  | pdbl =>
    simp only [commandView_pdbl, List.cons_append, List.nil_append, List.cons.injEq, Option.some.injEq] at h
    obtain ⟨hmod, hca, hcb, hview⟩ := h
    have hpoint : point1 s.operands = point1 s'.operands := decodePoint_congr hview
    simp only [commandOutcome, pdblOutcome, pointCommand_congr hmod hca hcb, curveA, modulus, hmod, hca, hpoint]
  | smul =>
    simp only [commandView_smul, List.cons_append, List.nil_append, List.cons.injEq, Option.some.injEq] at h
    obtain ⟨hmod, hca, hk, hcb, hview⟩ := h
    have hpoint : point1 s.operands = point1 s'.operands := decodePoint_congr hview
    simp only [commandOutcome, smulOutcome, pointCommand_congr hmod hca hcb, curveA, modulus, hmod, hca, hk, hpoint]

/-- One outcome committed in two states leaves one error code and, without error, one result (30_encoding.md R96). -/
theorem commit_agrees (o : Except Err Results) (s s' : State) : (commit o s).status.err = (commit o s').status.err ∧
    ((commit o s).status.err = 0 → (commit o s).results = (commit o s').results) := by
  cases o with
  | ok r => exact ⟨rfl, fun _ => rfl⟩
  | error e => exact ⟨rfl, fun h => absurd h (errCode_ne_zero e)⟩

/-- Settles O55: equal views give equal outcomes, and each state commits its outcome. -/
theorem outcomeDependsOnlyOnTheCommandsOperands : Obligations.OutcomeDependsOnlyOnTheCommandsOperands := by
  intro i s s' hview
  refine ⟨_, _, exec_eq_commit i s, exec_eq_commit i s', ?_⟩
  rw [commandOutcome_eq_of_view hview]
  exact commit_agrees _ s s'

/-! ### `irq` -/

/-- IE as the host reads it (R27). -/
theorem interruptEnable_eq_windowRead (s : State) : interruptEnable s = (windowRead s (regOffset .ctrl)).getLsbD 0 := by
  simp [interruptEnable, readReg]

/-- DONE as the host reads it (R29). -/
theorem done_eq_windowRead (s : State) : s.status.done = (windowRead s (regOffset .status)).getLsbD 1 := by
  rw [windowRead_regOffset]
  exact (statusDone_statusWord s.status).symm

/-- Settles O56: IE and DONE are bits of two words of the window, and each event named sets one of them. -/
theorem irqIsIeAndDone : Obligations.IrqIsIeAndDone := by
  intro s
  refine ⟨?level, rfl, ?completion, ?ack, ?issue, ?enable⟩
  case level => exact congrArg₂ _ (interruptEnable_eq_windowRead s) (done_eq_windowRead s)
  case completion =>
    intro rest t hnext hstep
    rw [step_of_completionNext hnext, completion_eq_commit] at hstep
    cases hstep
    refine Eq.trans ?_ (interruptEnable_eq_windowRead s)
    simp [irq, interruptEnable]
  case ack =>
    intro v rest t he hstep hv
    rw [step_write_reg (r := .status) he, windowWrite_status] at hstep
    cases hstep
    simp [irq, hv]
  case issue =>
    intro v rest t he hb hstep
    rw [step_write_cmd_idle hb he] at hstep
    cases hstep
    simp [irq]
  case enable =>
    intro v rest t he hb hdone hv hstep
    rw [step_write_writable_idle (r := .ctrl) (by decide) hb he] at hstep
    cases hstep
    simp [irq, interruptEnable, storeReg, hdone, hv]

/-! ### Reset, the window and STATUS as words -/

theorem readReg_reset (r : Reg) : readReg State.reset r = 0 := by cases r <;> rfl

/-- The five commands with a modulus end with BAD_MODULUS when it is 0 (60_exceptions.md R224). -/
theorem exec_of_mod_eq_zero {i : Instr} (hi : i ∈ [Instr.modinv, .oncurve, .padd, .pdbl, .smul]) {s : State}
    (hm : s.operands.mod = 0) : exec i s = .next (endsErr s 3) := by
  have hbad : checkedModulus s.operands = .error .badModulus := if_pos (modulus_eq_zero_iff.2 hm)
  have hout : commandOutcome i s = .error .badModulus := by
    cases i with
    | modinv => simp only [commandOutcome, modinvOutcome, hbad]
    | oncurve => simp only [commandOutcome, oncurveOutcome, hbad]
    | padd => simp only [commandOutcome, paddOutcome, pointCommand, hbad]
    | pdbl => simp only [commandOutcome, pdblOutcome, pointCommand, hbad]
    | smul => simp only [commandOutcome, smulOutcome, pointCommand, hbad]
    | affenc | affdec => simp at hi
  rw [exec_eq_commit, hout]
  rfl

/-- Settles O1: the reset values by evaluation, the five commands by the modulus test that comes first. -/
theorem resetLeavesEveryRegisterZero : Obligations.ResetLeavesEveryRegisterZero :=
  ⟨readReg_reset, rfl, rfl, rfl, rfl, rfl, rfl, rfl, rfl, rfl, rfl, rfl, fun _ hi _ hm => exec_of_mod_eq_zero hi hm⟩

/-- Settles O5: each offset is `regOffset` of its register. -/
theorem eachOffsetReadsItsRegister : Obligations.EachOffsetReadsItsRegister := fun s =>
  have reads := windowRead_regOffset s
  ⟨reads .ctrl, reads .cmd, reads .status, reads .mod, reads .ca, reads .cb, reads .k, reads .x1, reads .y1, reads .x2,
    reads .y2, reads .pinf, reads .val, reads .afa, reads .afb, reads .chr, reads .res0, reads .res1, reads .rinf⟩

theorem toNat_append_eq_add {m n : Nat} (x : BitVec m) (y : BitVec n) :
    (x ++ y).toNat = x.toNat * 2 ^ n + y.toNat := by
  rw [BitVec.toNat_append, ← Nat.shiftLeft_add_eq_or_of_lt y.isLt, Nat.shiftLeft_eq]

/-- Settles O10: each field counts with the weight of the fields below it. -/
theorem statusWordHoldsItsFields : Obligations.StatusWordHoldsItsFields := by
  intro t
  simp only [statusWord, toNat_append_eq_add, BitVec.toNat_ofBool, BitVec.toNat_ofNat]
  omega

theorem tableWord_eq_ofNat (w : Nat) : tableWord 32 w = BitVec.ofNat 32 w :=
  BitVec.eq_of_toNat_eq (by simp [tableWord])

theorem completionNext_withFetchWord (s : State) (nbits w : Nat) : CompletionNext (s.withFetchWord nbits w) s.events :=
  ⟨rfl, .inl rfl⟩

/-- Settles O18: the word stands in OPLATCH and its completion is the next event. -/
theorem fetchedWordRunsNext : Obligations.FetchedWordRunsNext := by
  intro s w i hi
  have hdecode : decode (BitVec.ofNat 32 w) = .ok i := by
    rw [← tableWord_eq_ofNat]
    exact decodeTableWord_eq_some.1 hi
  have hplaced : { s.withFetchWord 32 w with events := s.events } = issue (BitVec.ofNat 32 w) s := by
    rw [State.withFetchWord, tableWord_eq_ofNat]
    rfl
  rw [step_of_completionNext (completionNext_withFetchWord s 32 w), hplaced, completion, issue_oplatch, hdecode]

/-- Settles O52: reset reads STATUS 0, has no result `Inf`, no command in flight and no event to come. -/
theorem invariantsHoldAtReset : Obligations.InvariantsHoldAtReset := by
  have hstatus : StatusListed State.reset := .inl (by decide)
  have hresults : ResultsCanonical State.reset := fun hinf => absurd hinf (by decide)
  have hwork : WorkTracksOperands State.reset := fun hbusy => absurd hbusy (by decide)
  exact ⟨hstatus, hresults, hwork, rfl⟩

end Sys2Proof.Machine
end

section
/-! PROOFS. Family 20_memory.md: which requests the port serves (R64), what a read returns and leaves unchanged (R65, R66, R68),
what a write does at offsets and bits that store nothing (R65, R66), the byte view (R69), and the order within one clock edge (R73). -/

namespace Sys2Proof.Machine

open Sys2Proof.Claims

/-! ### Requests at the port -/

theorem step_of_events_cons {s : State} {e : Event} {rest : List Event} (h : s.events = e :: rest) :
    step s = applyEvent e { s with events := rest } := by
  unfold step
  rw [h]

/-- A read of a whole aligned word of the window is served (R64). -/
theorem applyEvent_read_aligned {off : Nat} (hoff : off < 0x100) (halign : off % 4 = 0) (s : State) :
    applyEvent (.read off 4) s = .next { s with rdata := windowRead s off } :=
  portCheck_wf (inWindow_iff.2 hoff) (wholeWord_iff.2 ⟨rfl, halign⟩) _

/-- A write of a whole aligned word of the window is served (R64). -/
theorem applyEvent_write_aligned {off : Nat} (hoff : off < 0x100) (halign : off % 4 = 0) (v : Word) (s : State) :
    applyEvent (.write off 4 v) s = .next (windowWrite off v s) :=
  portCheck_wf (inWindow_iff.2 hoff) (wholeWord_iff.2 ⟨rfl, halign⟩) _

theorem step_read_aligned {s : State} {off : Nat} {rest : List Event} (hoff : off < 0x100) (halign : off % 4 = 0)
    (he : s.events = .read off 4 :: rest) : step s = .next { s with events := rest, rdata := windowRead s off } := by
  rw [step_of_events_cons he, applyEvent_read_aligned hoff halign]
  rfl

theorem step_write_aligned {s : State} {off : Nat} {v : Word} {rest : List Event} (hoff : off < 0x100)
    (halign : off % 4 = 0) (he : s.events = .write off 4 v :: rest) :
    step s = .next (windowWrite off v { s with events := rest }) := by
  rw [step_of_events_cons he, applyEvent_write_aligned hoff halign]

theorem portCheck_outside {off : Nat} (h : 0x100 ≤ off) (size : Nat) (k : Host.Outcome State Fault Refusal) :
    portCheck off size k = .fault (.outsideWindow off) :=
  if_neg fun hin => absurd (inWindow_iff.1 hin) (by omega)

theorem portCheck_not_word {off size : Nat} (hoff : off < 0x100) (h : size ≠ 4 ∨ off % 4 ≠ 0)
    (k : Host.Outcome State Fault Refusal) : portCheck off size k = .refused (.notAWordAccess off size) := by
  have hword : ¬ wholeWord off size = true := fun hw => by
    have ⟨hsize, halign⟩ := wholeWord_iff.1 hw
    omega
  unfold portCheck
  rw [if_pos (inWindow_iff.2 hoff), if_neg hword]

/-- Reads and writes pass the same check of the port (R64). -/
theorem applyEvent_access {e : Event} {off size : Nat} {v : Word} (h : e = .read off size ∨ e = .write off size v)
    (s : State) : ∃ t, applyEvent e s = portCheck off size (.next t) := by
  obtain rfl | rfl := h
  · exact ⟨_, rfl⟩
  · exact ⟨_, rfl⟩

/-- Settles O11: both kinds of access go through `portCheck`, which answers by the offset first and then by size and alignment. -/
theorem onlyWholeAlignedWordsAreServed : Obligations.OnlyWholeAlignedWordsAreServed := by
  intro s off size v rest e haccess he
  obtain ⟨t, ht⟩ := applyEvent_access haccess { s with events := rest }
  rw [step_of_events_cons he, ht]
  exact ⟨fun hoff => portCheck_outside hoff size _, fun hoff hword => portCheck_not_word hoff hword _,
    fun hoff hsize halign => ⟨t, portCheck_wf (inWindow_iff.2 hoff) (wholeWord_iff.2 ⟨hsize, halign⟩) _⟩⟩

/-! ### Reads -/

theorem windowRead_unmapped {off : Nat} (h : ∀ r, regOffset r ≠ off) (s : State) : windowRead s off = 0 := by
  simp only [windowRead, regAt_eq_none_iff.2 h]

/-- Settles O4: a served read notes `windowRead`, which is the register of the offset or 0. -/
theorem hostReadChangesNothing : Obligations.HostReadChangesNothing := by
  intro s off rest hoff halign he
  refine ⟨_, step_read_aligned hoff halign he, ?mapped, fun h => windowRead_unmapped h s⟩
  case mapped =>
    rintro r rfl
    exact windowRead_regOffset s r

/-- The four bytes from a register's offset up are the bytes of its word (R69). -/
theorem windowByte_regOffset_add (s : State) (r : Reg) {n : Nat} (hn : n < 4) :
    windowByte s (regOffset r + n) = byteOfWord (readReg s r) n := by
  have halign : regOffset r % 4 = 0 := by cases r <;> rfl
  have hword : (regOffset r + n) / 4 * 4 = regOffset r := by omega
  have hbyte : (regOffset r + n) % 4 = n := by omega
  rw [windowByte, hword, hbyte, windowRead_regOffset]

/-- Settles O12: the four bytes are those of the register's word, and a word is put together from its bytes. -/
theorem windowBytesAreLittleEndian : Obligations.WindowBytesAreLittleEndian := by
  intro s r
  have hlow : windowByte s (regOffset r) = byteOfWord (readReg s r) 0 :=
    windowByte_regOffset_add s r (n := 0) (by decide)
  rw [windowByte_regOffset_add s r (n := 3) (by decide), windowByte_regOffset_add s r (n := 2) (by decide),
    windowByte_regOffset_add s r (n := 1) (by decide), hlow]
  exact (wordOfBytes_bytes (readReg s r)).symm

/-! ### Writes that store nothing -/

/-- The busy lock: a write of any offset but STATUS is dropped (70_reset_and_hazards.md R260). -/
theorem windowWrite_busy {off : Nat} (hoff : off ≠ 0x08) (v : Word) {s : State} (hb : s.status.busy = true) :
    windowWrite off v s = dropWrite s := by
  obtain ⟨h8, _⟩ | ⟨_, _, h⟩ | ⟨_, hidle, _⟩ | ⟨_, _, _, _, hidle, _⟩ | ⟨_, hidle, _⟩ := windowWrite_cases off v s
  · exact absurd h8 hoff
  · exact h
  all_goals exact absurd (hb.symm.trans hidle) (by decide)

/-- An idle write of an offset that is no command, no STATUS and no register the host may write is ignored (R65, R66). -/
theorem windowWrite_ignored_idle {off : Nat} (hstatus : off ≠ 0x08) (hcmd : off ≠ 0x04)
    (hreg : ∀ r ∈ writableRegs, off ≠ regOffset r) (v : Word) {s : State} (hb : s.status.busy = false) :
    windowWrite off v s = s := by
  obtain ⟨h8, _⟩ | ⟨_, hbusy, _⟩ | ⟨h4, _⟩ | ⟨r, hoff, _, _, _, h⟩ | ⟨_, _, h⟩ := windowWrite_cases off v s
  · exact absurd h8 hstatus
  · exact absurd (hb.symm.trans hbusy) (by decide)
  · exact absurd h4 hcmd
  · cases r with
    | cmd | status | res0 | res1 | rinf => exact h
    | _ => exact absurd hoff (hreg _ (by decide))
  · exact h

/-- Where nothing is stored, a write is ignored while idle and only sets WERR while busy (R65, R66). -/
theorem step_write_stores_nothing {s : State} {off : Nat} {v : Word} {rest : List Event} (hoff : off < 0x100)
    (halign : off % 4 = 0) (hstatus : off ≠ 0x08) (hcmd : off ≠ 0x04) (hreg : ∀ r ∈ writableRegs, off ≠ regOffset r)
    (he : s.events = .write off 4 v :: rest) :
    (s.status.busy = false → step s = .next { s with events := rest }) ∧
    (s.status.busy = true → step s = .next { s with events := rest, status := { s.status with werr := true } }) := by
  rw [step_write_aligned hoff halign he]
  constructor
  · intro hb
    rw [windowWrite_ignored_idle hstatus hcmd hreg v (s := { s with events := rest }) hb]
  · intro hb
    rw [windowWrite_busy hstatus v (s := { s with events := rest }) hb]
    rfl

/-- The offsets R66 lists hold no register. -/
theorem regOffset_ne_of_unmapped {off : Nat} (h : off ∈ [0x0C, 0x44, 0x48, 0x4C] ∨ (0x5C ≤ off ∧ off ≤ 0xFC ∧ off % 4 = 0))
    (r : Reg) : regOffset r ≠ off := by
  simp only [List.mem_cons, List.not_mem_nil, or_false] at h
  cases r <;> simp only [regOffset] <;> omega

/-- Settles O6: no register stands at these offsets, so a read finds none and a write has none to store in. -/
theorem unmappedOffsetsReadZeroAndIgnoreWrites : Obligations.UnmappedOffsetsReadZeroAndIgnoreWrites := by
  intro s off v rest hoff
  have hnone := regOffset_ne_of_unmapped hoff
  have hwindow : off < 0x100 ∧ off % 4 = 0 := by
    simp only [List.mem_cons, List.not_mem_nil, or_false] at hoff
    omega
  obtain ⟨hlt, halign⟩ := hwindow
  have hwrite := fun he => step_write_stores_nothing (s := s) (v := v) (rest := rest) hlt halign (hnone .status).symm
    (hnone .cmd).symm (fun r _ => (hnone r).symm) he
  refine ⟨fun he => ?read, fun he => (hwrite he).1, fun he => (hwrite he).2⟩
  case read => rw [step_read_aligned hlt halign he, windowRead_unmapped hnone]

/-! ### Bits that store nothing -/

/-- The bits of a register above the width of its field read 0 (R65). -/
theorem windowRead_getLsbD_above_field {s : State} {r : Reg} {k n : Nat} {field : BitVec k}
    (hr : readReg s r = field.setWidth 32) (hn : k ≤ n) : (windowRead s (regOffset r)).getLsbD n = false := by
  rw [windowRead_regOffset, hr, BitVec.getLsbD_setWidth, BitVec.getLsbD_of_ge field n hn, Bool.and_false]

/-- The bits of STATUS between DONE and ERR and above WERR (10_state.md R29). -/
theorem statusWord_unimplemented (t : Status) {n : Nat} (hn : n = 2 ∨ n = 3 ∨ 9 ≤ n) :
    (statusWord t).getLsbD n = false := by
  obtain rfl | rfl | h9 := hn
  · simp only [statusWord, BitVec.getLsbD_append]
    rfl
  · simp only [statusWord, BitVec.getLsbD_append]
    rfl
  · have hfields := statusWordHoldsItsFields t
    have hbusy := t.busy.toNat_lt
    have hdone := t.done.toNat_lt
    have hwerr := t.werr.toNat_lt
    have herr := t.err.isLt
    have hlt : (statusWord t).toNat < 2 ^ 9 := by omega
    exact Nat.testBit_lt_two_pow (hlt.trans_le (Nat.pow_le_pow_right (by decide) h9))

/-- A word and its masked bits agree below the mask's width. -/
theorem setWidth_and_mask (v : Word) {k : Nat} (hk : k ≤ 32) :
    (v &&& BitVec.ofNat 32 (2 ^ k - 1)).setWidth k = v.setWidth k := by
  rw [← setWidth_setWidth_eq_and_mask v hk, BitVec.setWidth_setWidth_of_le _ hk, BitVec.setWidth_eq]

/-- A register takes the same from a written word and from its implemented bits (R65). -/
theorem storeReg_and_implementedBits (r : Reg) (v : Word) (s : State) :
    storeReg r (v &&& implementedBits r) s = storeReg r v s := by
  have hall : v &&& 0xFFFFFFFF#32 = v := BitVec.and_allOnes
  have htwo : (v &&& 0x00000003#32).setWidth 2 = v.setWidth 2 := setWidth_and_mask v (k := 2) (by decide)
  have height : (v &&& 0x000000FF#32).setWidth 8 = v.setWidth 8 := setWidth_and_mask v (k := 8) (by decide)
  cases r with
  | ctrl | pinf => simp only [storeReg, implementedBits, htwo]
  | chr => simp only [storeReg, implementedBits, height]
  | _ => simp only [storeReg, implementedBits, hall]

theorem windowWrite_and_implementedBits {r : Reg} (hr : r ∈ writableRegs) (v : Word) (s : State) :
    windowWrite (regOffset r) v s = windowWrite (regOffset r) (v &&& implementedBits r) s := by
  cases hb : s.status.busy with
  | false => rw [windowWrite_writable_idle hr v hb, windowWrite_writable_idle hr _ hb, storeReg_and_implementedBits]
  | true =>
    have hstatus : ∀ r ∈ writableRegs, regOffset r ≠ 0x08 := by decide
    rw [windowWrite_busy (hstatus r hr) v hb, windowWrite_busy (hstatus r hr) _ hb]

/-- A write of STATUS looks at bits 1 and 8 alone (10_state.md R29). -/
theorem windowWrite_status_and_mask (v : Word) (s : State) :
    windowWrite (regOffset .status) v s = windowWrite (regOffset .status) (v &&& 0x00000102#32) s := by
  have hmask : statusW1C (v &&& 0x00000102#32) s.status = statusW1C v s.status := by simp [statusW1C]
  rw [windowWrite_status, windowWrite_status, hmask]

/-- The offsets of RES0, RES1 and RINF, where no write stores anything (R65). -/
theorem result_offset_stores_nothing {off : Nat} (h : off ∈ [0x50, 0x54, 0x58]) :
    off < 0x100 ∧ off % 4 = 0 ∧ off ≠ 0x08 ∧ off ≠ 0x04 ∧ ∀ r ∈ writableRegs, off ≠ regOffset r := by
  revert off
  decide

/-- Settles O7: RES0, RES1 and RINF store nothing, the unimplemented bits have no home to be read from or stored in, and a write
of STATUS is `statusW1C`. -/
theorem readOnlyBitsIgnoreWritesAndUnimplementedBitsReadZero :
    Obligations.ReadOnlyBitsIgnoreWritesAndUnimplementedBitsReadZero := by
  intro s v rest
  refine ⟨?results, ?status, windowRead_regOffset s .cmd, ?ctrlPinf, ?chr, ?rinf, ?statusBits,
    windowWrite_and_implementedBits (r := .ctrl) (by decide) v s,
    windowWrite_and_implementedBits (r := .pinf) (by decide) v s,
    windowWrite_and_implementedBits (r := .chr) (by decide) v s, windowWrite_status_and_mask v s⟩
  case results =>
    intro off hoff he
    obtain ⟨hlt, halign, hstatus, hcmd, hreg⟩ := result_offset_stores_nothing hoff
    exact step_write_stores_nothing hlt halign hstatus hcmd hreg he
  case status => exact fun he => ⟨_, _, step_write_reg (r := .status) he⟩
  case ctrlPinf =>
    exact fun n hn => ⟨windowRead_getLsbD_above_field (r := .ctrl) (field := s.ctrl) rfl hn,
      windowRead_getLsbD_above_field (r := .pinf) (field := s.operands.pinf) rfl hn⟩
  case chr => exact fun n hn => windowRead_getLsbD_above_field (r := .chr) (field := s.operands.chr) rfl hn
  case rinf => exact fun n hn => windowRead_getLsbD_above_field (r := .rinf) (field := s.results.rinf) rfl hn
  case statusBits =>
    intro n hn
    exact (congrArg (BitVec.getLsbD · n) (windowRead_regOffset s .status)).trans (statusWord_unimplemented _ hn)

/-! ### One clock edge -/

/-- A host write does not end the command in flight (10_state.md R38). -/
theorem windowWrite_keeps_busy (off : Nat) (v : Word) {s : State} (hb : s.status.busy = true) :
    (windowWrite off v s).status.busy = true := by
  by_cases hoff : off = 0x08
  · subst hoff
    exact hb
  · rw [windowWrite_busy hoff v hb]
    exact hb

/-- An event that leaves the block busy hands its state to the completion after it (R73). -/
theorem applyEvents_then_completion {e : Event} {s t : State} (he : applyEvent e s = .next t) (hb : t.status.busy = true) :
    applyEvents [e, .completion] s = completion t := by
  have hlast : applyEvents [.completion] t = completion t := by
    simp only [applyEvents, applyEvent, hb, if_true]
    cases completion t <;> rfl
  rw [← hlast, applyEvents, he]

/-- On an edge with an access and a completion due, the completion starts from the state the access leaves (R73). -/
theorem clockEdge_access_due {p : Pins} {e : Event} {s t : State} (hrst : p.rst = false) (hdue : p.due = true)
    (haccess : pinAccess p = [e]) (he : applyEvent e s = .next t) (hb : t.status.busy = true) :
    clockEdge p s = completion t := by
  have hevents : pinEvents p = [e, .completion] := by simp [pinEvents, hrst, hdue, haccess]
  rw [clockEdge, hevents, applyEvents_then_completion he hb]

theorem clockEdge_read_due {p : Pins} {s : State} (hrst : p.rst = false) (hreq : p.req = true) (hdue : p.due = true)
    (hb : s.status.busy = true) (hwe : p.we = false) :
    clockEdge p s = completion { s with rdata := windowRead s (4 * p.idx.toNat) } := by
  have hidx := p.idx.isLt
  have haccess : pinAccess p = [.read (4 * p.idx.toNat) 4] := by simp [pinAccess, hreq, hwe]
  exact clockEdge_access_due hrst hdue haccess (applyEvent_read_aligned (by omega) (by omega) s) hb

theorem clockEdge_write_due {p : Pins} {s : State} (hrst : p.rst = false) (hreq : p.req = true) (hdue : p.due = true)
    (hb : s.status.busy = true) (hwe : p.we = true) :
    clockEdge p s = completion (windowWrite (4 * p.idx.toNat) p.wdata s) := by
  have hidx := p.idx.isLt
  have haccess : pinAccess p = [.write (4 * p.idx.toNat) 4 p.wdata] := by simp [pinAccess, hreq, hwe]
  exact clockEdge_access_due hrst hdue haccess (applyEvent_write_aligned (by omega) (by omega) _ s)
    (windowWrite_keeps_busy _ _ hb)

/-- W1C as the test of each bit (10_state.md R29). -/
theorem statusW1C_eq_ite (v : Word) (t : Status) : statusW1C v t =
    { t with done := if v.getLsbD 1 then false else t.done, werr := if v.getLsbD 8 then false else t.werr } := by
  have hclear : ∀ old bit : Bool, (old && !bit) = if bit then false else old := by decide
  simp only [statusW1C, hclear]

/-- Settles O59: the edge is the access and then the completion, and the access is a read, a write the busy lock drops, or the W1C
of STATUS. -/
theorem hostAccessComesBeforeTheCompletionOfItsEdge : Obligations.HostAccessComesBeforeTheCompletionOfItsEdge := by
  intro p s hrst hreq hdue hb
  refine ⟨fun hwe => ⟨?rdata, clockEdge_read_due hrst hreq hdue hb hwe⟩, ?dropped, ?status⟩
  case rdata => simp [pinsOut, hrst, hreq, hwe]
  case dropped =>
    intro hwe hidx
    have hindex : p.idx.toNat ≠ 2 := fun h => hidx (BitVec.eq_of_toNat_eq h)
    have hoff : 4 * p.idx.toNat ≠ 0x08 := by omega
    rw [clockEdge_write_due hrst hreq hdue hb hwe, windowWrite_busy hoff _ hb]
    rfl
  case status =>
    intro hwe hidx
    have hoff : 4 * p.idx.toNat = regOffset .status := by rw [hidx]; rfl
    rw [clockEdge_write_due hrst hreq hdue hb hwe, hoff, windowWrite_status, statusW1C_eq_ite]

end Sys2Proof.Machine
end

section
/-! PROOFS. Family 30_encoding.md: the opcode map and its byte form (R92, R93), issue and completion (R95 to R98), the values of
STATUS (R99) and the encoding of a result `Inf` (R104). -/

namespace Sys2Proof

/-! ### The opcode map -/

/-- A word decodes to a command only when it is that command's own word (R92). -/
theorem decode_eq_ok_iff {w : Word} {i : Instr} : decode w = .ok i ↔ w = encode i := by
  constructor
  · intro h
    rw [decode_eq] at h
    split_ifs at h with h1 h2 h3 h4 h5 h6 h7 <;> cases h
    exacts [h1, h2, h3, h4, h5, h6, h7]
  · rintro rfl
    exact decode_encode_eq i

/-- The decoder rejects a word under one name only (R93). -/
theorem eq_illegalCmd_of_decode_eq_error {w : Word} {e : Reject} (h : decode w = .error e) : e = .illegalCmd w := by
  unfold decode at h
  split at h <;> cases h
  rfl

/-- The command words are the numbers 1 to 7 (R92). -/
theorem exists_eq_encode_iff {w : Word} : (∃ i, w = encode i) ↔ 1 ≤ w.toNat ∧ w.toNat ≤ 7 := by
  constructor
  · rintro ⟨i, rfl⟩
    cases i <;> decide
  · rintro ⟨hlow, hhigh⟩
    have hw : w = BitVec.ofNat 32 w.toNat := by simp
    generalize w.toNat = n at hlow hhigh hw
    interval_cases n
    exacts [⟨.modinv, hw⟩, ⟨.padd, hw⟩, ⟨.pdbl, hw⟩, ⟨.smul, hw⟩, ⟨.oncurve, hw⟩, ⟨.affenc, hw⟩, ⟨.affdec, hw⟩]

/-- The illegal words are 0 and 8 upward (R93). -/
theorem decode_eq_illegalCmd_iff {w : Word} :
    decode w = .error (.illegalCmd w) ↔ w.toNat = 0 ∨ 8 ≤ w.toNat := by
  have hcommand : (∃ i, decode w = .ok i) ↔ 1 ≤ w.toNat ∧ w.toNat ≤ 7 := by
    simp only [decode_eq_ok_iff, exists_eq_encode_iff]
  cases hd : decode w with
  | ok i =>
    have hrange := hcommand.1 ⟨i, hd⟩
    simp only [reduceCtorEq, false_iff]
    omega
  | error e =>
    have hrange : ¬ (1 ≤ w.toNat ∧ w.toNat ≤ 7) := fun hw => by
      obtain ⟨i, hi⟩ := hcommand.2 hw
      rw [hd] at hi
      cases hi
    simp only [eq_illegalCmd_of_decode_eq_error hd, true_iff]
    omega

/-- The decoder on bytes reads the word the first four bytes make and leaves the rest (20_memory.md R69). -/
theorem decodeBytes_bytesOfWord_append (w : Word) (rest : List Byte) :
    decodeBytes (bytesOfWord w ++ rest) = (decode w).map (fun i => (i, rest)) := by
  simp only [bytesOfWord, List.cons_append, List.nil_append, decodeBytes, wordOfBytes_bytes]
  cases decode w <;> rfl

/-- Bytes the decoder accepts start with the four bytes of a word (20_memory.md R64, R69). -/
theorem exists_word_of_decodeBytes_eq_ok {bs : List Byte} {p : Instr × List Byte} (h : decodeBytes bs = .ok p) :
    ∃ w rest, bs = bytesOfWord w ++ rest := by
  match bs with
  | b0 :: b1 :: b2 :: b3 :: rest => exact ⟨wordOfBytes b0 b1 b2 b3, rest, by rw [bytesOfWord_wordOfBytes]; rfl⟩
  | [] | [_] | [_, _] | [_, _, _] => cases h

/-- Decoding inverts encoding on bytes, and nothing else decodes (R92, 20_memory.md R69). -/
theorem decodeBytes_eq_ok_iff {bs rest : List Byte} {i : Instr} :
    decodeBytes bs = .ok (i, rest) ↔ bs = encodeBytes i ++ rest := by
  constructor
  · intro h
    obtain ⟨w, rest', rfl⟩ := exists_word_of_decodeBytes_eq_ok h
    rw [decodeBytes_bytesOfWord_append] at h
    cases hd : decode w with
    | error e =>
      rw [hd] at h
      cases h
    | ok j =>
      rw [hd] at h
      cases h
      rw [decode_eq_ok_iff.1 hd]
      rfl
  · rintro rfl
    rw [encodeBytes, decodeBytes_bytesOfWord_append, decode_encode_eq]
    rfl

/-- Settles O14: the two directions of `decodeBytes_eq_ok_iff`. -/
theorem commandBytesDecodeBack : Obligations.CommandBytesDecodeBack :=
  fun _ _ _ _ => ⟨decodeBytes_eq_ok_iff.2 rfl, decodeBytes_eq_ok_iff.1⟩

/-- Settles O13: each command by `decode_eq_ok_iff`, the rest by the range of the seven words. -/
theorem everyWordIsOneCommandOrIllegal : Obligations.EveryWordIsOneCommandOrIllegal := fun _ =>
  ⟨decode_eq_ok_iff, decode_eq_ok_iff, decode_eq_ok_iff, decode_eq_ok_iff, decode_eq_ok_iff, decode_eq_ok_iff,
    decode_eq_ok_iff, decode_eq_illegalCmd_iff⟩

/-- Settles O15: each word is the encoding of its command. -/
theorem writtenOutWordsDecode : Obligations.WrittenOutWordsDecode :=
  ⟨decode_encode_eq .modinv, decode_encode_eq .padd, decode_encode_eq .pdbl, decode_encode_eq .smul,
    decode_encode_eq .oncurve, decode_encode_eq .affenc, decode_encode_eq .affdec⟩

end Sys2Proof

namespace Sys2Proof.Machine

open Sys2Proof.Claims

/-! ### Issue and completion -/

/-- Settles O16: while idle the write is `issue`, while busy it is dropped. -/
theorem issueSetsBusyAndLatchesTheWord : Obligations.IssueSetsBusyAndLatchesTheWord := by
  intro s w rest he
  constructor
  · intro hb
    exact ⟨_, workStart w s.operands, step_write_cmd_idle hb he, by simp [irq], rfl⟩
  · intro hb
    rw [step_write_reg (r := .cmd) he, windowWrite_busy (by decide) w (s := { s with events := rest }) hb]
    rfl

/-- Settles O17: the step is the completion, which runs the command that OPLATCH decodes to. -/
theorem completionRunsTheCommandInFlight : Obligations.CompletionRunsTheCommandInFlight := by
  intro s rest i hnext hdecode
  simp only [step_of_completionNext hnext, completion, hdecode]

/-- Settles O20: `step` and `applyEvent` test BUSY before they complete or work. -/
theorem idleBlockKeepsItsState : Obligations.IdleBlockKeepsItsState := by
  intro s hidle
  constructor
  · intro hnone
    simp [step, hnone, hidle]
  · rintro rest (he | he) <;> simp [step_of_events_cons he, applyEvent, hidle]

/-! ### The values of STATUS -/

/-- The eleven values of R99 are the words of legal fields with WERR = 0. -/
theorem statusWord_mem_statusValues_iff (s : State) :
    statusWord s.status ∈ statusValues ↔ s.status.werr = false ∧ StatusLegal s := by
  unfold StatusLegal
  obtain ⟨busy, done, err, werr⟩ := s.status
  revert busy done err werr
  decide

/-- WERR alone has the weight 0x100, which no value of R99 reaches. -/
theorem statusWord_eq_add_iff {w : Word} (hw : w ∈ statusValues) (t : Status) :
    statusWord t = w + 0x100#32 ↔ t.werr = true ∧ statusWord { t with werr := false } = w := by
  have hsmall : ∀ w ∈ statusValues, w.toNat < 0x100 := by simp [statusValues]
  have hlt := hsmall w hw
  have hfields := statusWordHoldsItsFields t
  have hcleared := statusWordHoldsItsFields { t with werr := false }
  have herr := t.err.isLt
  have hbusy := t.busy.toNat_lt
  have hdone := t.done.toNat_lt
  have hwerr := t.werr.toNat_lt
  rw [← BitVec.toNat_inj, ← BitVec.toNat_inj, BitVec.toNat_add, BitVec.toNat_ofNat, ← Bool.toNat_eq_one]
  simp only [Bool.toNat_false] at hcleared
  omega

/-- The values of R99 say of the fields: no DONE and no code while busy, and no code above 4. -/
theorem statusListed_iff_statusLegal {s : State} : StatusListed s ↔ StatusLegal s := by
  have hword : windowRead s 0x08 = statusWord s.status := windowRead_regOffset s .status
  have hplus : (∃ w ∈ statusValues, statusWord s.status = w + 0x100#32) ↔ s.status.werr = true ∧ StatusLegal s := by
    have hcleared : statusWord { s.status with werr := false } ∈ statusValues ↔ StatusLegal s :=
      (statusWord_mem_statusValues_iff { s with status := { s.status with werr := false } }).trans (and_iff_right rfl)
    rw [← hcleared]
    constructor
    · rintro ⟨w, hw, h⟩
      obtain ⟨hwerr, rfl⟩ := (statusWord_eq_add_iff hw s.status).1 h
      exact ⟨hwerr, hw⟩
    · rintro ⟨hwerr, hw⟩
      exact ⟨_, hw, (statusWord_eq_add_iff hw s.status).2 ⟨hwerr, rfl⟩⟩
  rw [StatusListed, hword, hplus, statusWord_mem_statusValues_iff]
  cases s.status.werr <;> simp

theorem statusLegal_reset : StatusLegal State.reset := ⟨fun hb => absurd hb Bool.false_ne_true, by decide⟩

/-- W1C clears DONE and WERR, a dropped write sets WERR, an issue starts with no DONE and no code; no other write moves STATUS
(R99). -/
theorem windowWrite_statusLegal (off : Nat) (v : Word) {s : State} (hlegal : StatusLegal s) :
    StatusLegal (windowWrite off v s) := by
  obtain ⟨hbusy, hcode⟩ := hlegal
  obtain ⟨_, h⟩ | ⟨_, _, h⟩ | ⟨_, _, h⟩ | ⟨r, _, _, _, _, h⟩ | ⟨_, _, h⟩ := windowWrite_cases off v s <;> rw [h]
  · exact ⟨fun hb => by simp [hbusy hb], hcode⟩
  · exact ⟨hbusy, hcode⟩
  · exact ⟨fun _ => ⟨rfl, rfl⟩, by simp⟩
  · rw [StatusLegal, storeReg_status]
    exact ⟨hbusy, hcode⟩
  · exact ⟨hbusy, hcode⟩

theorem errCode_toNat_le_four (e : Err) : (errCode e).toNat ≤ 4 := by cases e <;> decide

/-- A completion leaves the block idle with a code of 30_encoding.md R100 or none. -/
theorem commit_statusLegal (o : Except Err Results) (s : State) : StatusLegal (commit o s) := by
  refine ⟨fun hb => absurd hb (by simp), ?_⟩
  cases o with
  | ok r => simp
  | error e => exact errCode_toNat_le_four e

theorem step_keeps_statusLegal {s t : State} (hlegal : StatusLegal s) (hstep : step s = .next t) : StatusLegal t := by
  obtain ⟨rest, ⟨v, rfl⟩ | ⟨off, v, _, rfl⟩ | ⟨_, rfl⟩ | ⟨_, rfl⟩ | ⟨_, rfl⟩⟩ := step_next_cases hstep
  · exact hlegal
  · exact windowWrite_statusLegal off v (s := { s with events := rest }) hlegal
  · exact commit_statusLegal _ _
  · exact hlegal
  · exact statusLegal_reset

/-- Settles O49: in terms of the fields of STATUS, every step keeps the claim. -/
theorem statusTakesOnlyItsListedValues : Obligations.StatusTakesOnlyItsListedValues :=
  ⟨statusListed_iff_statusLegal.2 statusLegal_reset, fun _ _ hlisted hstep =>
    statusListed_iff_statusLegal.2 (step_keeps_statusLegal (statusListed_iff_statusLegal.1 hlisted) hstep)⟩

/-! ### The encoding of results -/

/-- `EncodePoint` gives `Inf` the coordinates 0 (R104). -/
theorem encodePoint_inf_coordinates {P : Point} (h : (encodePoint P).rinf = 1) :
    (encodePoint P).res0 = 0 ∧ (encodePoint P).res1 = 0 := by
  cases P with
  | inf => exact ⟨rfl, rfl⟩
  | aff x y => exact absurd h (by simp [encodePoint])

/-- A result of one integer looks like an affine point with second coordinate 0 (R97). -/
theorem encodeInt_eq_encodePoint (v : Nat) : encodeInt v = encodePoint (.aff v 0) := rfl

theorem pointCommand_ok {s : State} {points : List Point} {arithmetic : Except Err Point} {r : Results}
    (h : pointCommand s points arithmetic = .ok r) : ∃ P, r = encodePoint P := by
  obtain ⟨_, herr⟩ | ⟨_, _, herr⟩ | ⟨_, _, _, _, herr⟩ | ⟨_, _, P, _, hok⟩ := pointCommand_cases s points arithmetic
  case inr.inr.inr =>
    rw [hok] at h
    cases h
    exact ⟨P, rfl⟩
  all_goals
    rw [herr] at h
    cases h

/-- Whatever a command commits is a point encoded, or one integer (R97, R103, R104). -/
theorem commandOutcome_ok {i : Instr} {s : State} {r : Results} (h : commandOutcome i s = .ok r) :
    ∃ P, r = encodePoint P := by
  cases i with
  | padd | pdbl | smul => exact pointCommand_ok h
  | modinv =>
    simp only [commandOutcome, modinvOutcome] at h
    split at h
    · cases h
    · split at h <;> cases h
      exact ⟨_, encodeInt_eq_encodePoint _⟩
  | oncurve =>
    simp only [commandOutcome, oncurveOutcome] at h
    split at h <;> cases h
    exact ⟨_, encodeInt_eq_encodePoint _⟩
  | affenc =>
    simp only [commandOutcome, affencOutcome] at h
    split at h <;> cases h <;> exact ⟨_, encodeInt_eq_encodePoint _⟩
  | affdec =>
    simp only [commandOutcome, affdecOutcome] at h
    split at h
    · cases h
    · split at h <;> cases h <;> exact ⟨_, encodeInt_eq_encodePoint _⟩

theorem latchOutcome_ok {s : State} {r : Results} (h : latchOutcome s = .ok r) : ∃ P, r = encodePoint P := by
  unfold latchOutcome at h
  split at h
  · exact commandOutcome_ok h
  · cases h

/-- The completion writes an encoded result, or keeps the results it finds (R96). -/
theorem commit_latchOutcome_resultsCanonical {s : State} (hcanonical : ResultsCanonical s) :
    ResultsCanonical (commit (latchOutcome s) s) := by
  cases hout : latchOutcome s with
  | ok r =>
    obtain ⟨P, rfl⟩ := latchOutcome_ok hout
    exact encodePoint_inf_coordinates
  | error e => exact hcanonical

/-- Settles O50: only the completion and reset move the result registers. -/
theorem infinityResultKeepsZeroCoordinates : Obligations.InfinityResultKeepsZeroCoordinates := by
  intro s t hcanonical hstep
  obtain ⟨rest, ⟨v, rfl⟩ | ⟨off, v, _, rfl⟩ | ⟨_, rfl⟩ | ⟨_, rfl⟩ | ⟨_, rfl⟩⟩ := step_next_cases hstep
  · exact hcanonical
  · simpa only [ResultsCanonical, windowWrite_results] using hcanonical
  · exact commit_latchOutcome_resultsCanonical (s := { s with events := rest }) hcanonical
  · exact hcanonical
  · exact fun _ => ⟨rfl, rfl⟩

end Sys2Proof.Machine
end

section
/-! PROOFS. Family 40_modinv.md: the inverse MODINV gives and its errors (R122), its corner cases (R123 to R125), and the rounds of
the Euclidean iteration (R126). -/

namespace Sys2Proof.Machine

open Sys2Proof.Claims

/-! ### What MODINV ends with -/

theorem mod_toNat_pos {o : Operands} (hm : o.mod ≠ 0) : 0 < o.mod.toNat :=
  Nat.pos_of_ne_zero (mt modulus_eq_zero_iff.1 hm)

/-- Past its modulus test MODINV commits what `ModInv` answers (R122). -/
theorem exec_modinv {s : State} (hm : s.operands.mod ≠ 0) :
    exec .modinv s = .next (commit ((modInv s.operands.val.toInt s.operands.mod.toNat).map encodeInt) s) := by
  have hchecked : checkedModulus s.operands = .ok s.operands.mod.toNat := if_neg (mt modulus_eq_zero_iff.1 hm)
  rw [exec_eq_commit, commandOutcome, modinvOutcome, hchecked]
  simp only [sint]
  cases modInv s.operands.val.toInt s.operands.mod.toNat <;> rfl

theorem exec_modinv_of_modInv_ok {s : State} {i : Nat} (hm : s.operands.mod ≠ 0)
    (h : modInv s.operands.val.toInt s.operands.mod.toNat = .ok i) :
    exec .modinv s = .next (endsOk s (BitVec.ofNat 32 i) 0 0) := by
  rw [exec_modinv hm, h]
  rfl

theorem exec_modinv_of_modInv_error {s : State} (hm : s.operands.mod ≠ 0)
    (h : modInv s.operands.val.toInt s.operands.mod.toNat = .error .noInverse) :
    exec .modinv s = .next (endsErr s 1) := by
  rw [exec_modinv hm, h]
  rfl

/-- An inverse below the modulus is the result (R121, R122). -/
theorem exec_modinv_of_isInverse {s : State} {i : Nat} (hm : s.operands.mod ≠ 0)
    (h : IsInverse s.operands.val.toInt s.operands.mod.toNat i) :
    exec .modinv s = .next (endsOk s (BitVec.ofNat 32 i) 0 0) :=
  exec_modinv_of_modInv_ok hm ((modInv_eq_ok_iff (mod_toNat_pos hm)).2 h)

theorem exec_modinv_of_gcd_ne_one {s : State} (hm : s.operands.mod ≠ 0)
    (h : Int.gcd s.operands.val.toInt s.operands.mod.toNat ≠ 1) : exec .modinv s = .next (endsErr s 1) :=
  exec_modinv_of_modInv_error hm (modInv_error _ (mod_toNat_pos hm) h)

/-- Settles O22: the modulus test comes first, and past it `ModInv` answers the one inverse exactly when the gcd is 1. -/
theorem modinvGivesTheUniqueInverse : Obligations.ModinvGivesTheUniqueInverse := by
  refine ⟨decode_encode_eq .modinv, fun s => ⟨exec_of_mod_eq_zero (by simp), exec_modinv_of_gcd_ne_one, ?_⟩⟩
  intro hm hgcd
  obtain ⟨i, _, hi⟩ := modInv_ok _ (mod_toNat_pos hm) hgcd
  exact ⟨i, hi, fun j hj => inverse_unique hj.1 hi.1 hj.2 hi.2, exec_modinv_of_isInverse hm hi⟩

/-- Settles O23: both `ModInv` and the command read the value through its residue. -/
theorem modinvUsesOnlyTheResidue : Obligations.ModinvUsesOnlyTheResidue := by
  constructor
  · intro v m hm
    have hresidue : v % m = (modulo v m : Int) % m := ((modulo_eq_iff hm).1 rfl).2
    exact modInv_congr hresidue
  · intro s s' hmod hm hval
    have hinv := modInv_congr hval
    refine ⟨_, _, exec_modinv hm, exec_modinv (hmod ▸ hm), ?_⟩
    rw [← hmod, ← hinv]
    exact commit_agrees _ s s'

/-! ### Corner cases -/

/-- A value congruent to 0 shares the modulus itself as a divisor (R125). -/
theorem gcd_ne_one_of_residue_zero {v : Int} {m : Nat} (hm : 2 ≤ m) (hv : v % m = 0) : Int.gcd v m ≠ 1 := by
  have hgcd : (Int.gcd v m : Int) = m := (Int.gcd_eq_right_iff_dvd (by omega)).2 (Int.dvd_of_emod_eq_zero hv)
  omega

theorem isInverse_one (v : Int) : IsInverse v 1 0 := ⟨one_pos, by simp⟩

theorem isInverse_of_residue_one {v : Int} {m : Nat} (hm : 2 ≤ m) (hv : v % m = 1) : IsInverse v m 1 := by
  have hone : (1 : Int) % m = 1 := Int.emod_eq_of_lt (by omega) (by omega)
  exact ⟨hm, by rw [Nat.cast_one, mul_one, hv, hone]⟩

/-- `m - 1` is -1 modulo `m`, which is its own inverse (R125). -/
theorem isInverse_of_residue_pred {v : Int} {m : Nat} (hm : 2 ≤ m) (hv : v % m = m - 1) : IsInverse v m (m - 1) := by
  have hpred : ((m - 1 : Nat) : Int) ≡ -1 [ZMOD m] := by
    rw [Nat.cast_sub (by omega), Int.modEq_iff_dvd]
    exact ⟨-1, by push_cast; ring⟩
  have hval : v ≡ -1 [ZMOD m] := by
    have hv' : v ≡ (m - 1 : Nat) [ZMOD m] := by
      rw [Int.ModEq, hv, Int.emod_eq_of_lt (by omega) (by omega)]
      omega
    exact hv'.trans hpred
  exact ⟨by omega, hval.mul hpred⟩

/-- Settles O24: each residue has its inverse named, or a common divisor with the modulus; at modulus 2 the residues are 0 and 1. -/
theorem modinvCornerCases : Obligations.ModinvCornerCases := by
  rintro s m rfl
  have hne (h : 1 ≤ s.operands.mod.toNat) : s.operands.mod ≠ 0 := fun h0 => by simp [h0] at h
  have residueZero (h : 2 ≤ s.operands.mod.toNat) (hv : s.operands.val.toInt % s.operands.mod.toNat = 0) :=
    exec_modinv_of_gcd_ne_one (hne (by omega)) (gcd_ne_one_of_residue_zero h hv)
  have residueOne (h : 2 ≤ s.operands.mod.toNat) (hv : s.operands.val.toInt % s.operands.mod.toNat = 1) :=
    exec_modinv_of_isInverse (hne (by omega)) (isInverse_of_residue_one h hv)
  refine ⟨fun h => ?_, residueZero, residueOne, fun h hv => ?_, fun h hv => ?_, fun h hv => ?_⟩
  · exact exec_modinv_of_isInverse (hne h.ge) (by rw [h]; exact isInverse_one _)
  · exact exec_modinv_of_isInverse (hne (by omega)) (isInverse_of_residue_pred h hv)
  · exact residueOne h.ge (by rw [h]; exact hv)
  · exact residueZero h.ge (by rw [h]; exact hv)

/-! ### The rounds of the Euclidean iteration -/

theorem euclidNext_of_r1_eq_zero {e : Euclid} (h : e.r1 = 0) : euclidNext e = e := if_pos h

theorem euclidNext_of_r1_ne_zero {e : Euclid} (h : e.r1 ≠ 0) : euclidNext e = euclidRound e := if_neg h

/-- Rounds after the remainder is 0 change nothing. -/
theorem euclidNext_iterate_of_r1_eq_zero {e : Euclid} (h : e.r1 = 0) (n : Nat) : euclidNext^[n] e = e :=
  Function.iterate_fixed (euclidNext_of_r1_eq_zero h) n

/-- The loop of `ExtEuclid` is as many single rounds as it has fuel. -/
theorem euclidRun_eq_iterate (fuel : Nat) (e : Euclid) : euclidRun fuel e = euclidNext^[fuel] e := by
  induction fuel generalizing e with
  | zero => rfl
  | succ fuel ih =>
    by_cases h : e.r1 = 0
    · rw [euclidNext_iterate_of_r1_eq_zero h, euclidRun, if_pos h]
    · rw [Function.iterate_succ_apply, euclidNext_of_r1_ne_zero h, euclidRun, if_neg h, ih]

/-- Any two numbers of rounds that bring the remainder to 0 end in the same values. -/
theorem euclidNext_iterate_unique {e : Euclid} {i j : Nat} (hi : (euclidNext^[i] e).r1 = 0)
    (hj : (euclidNext^[j] e).r1 = 0) : euclidNext^[i] e = euclidNext^[j] e := by
  wlog hij : i ≤ j generalizing i j
  · exact (this hj hi (by omega)).symm
  obtain ⟨k, rfl⟩ := Nat.exists_eq_add_of_le' hij
  rw [Function.iterate_add_apply, euclidNext_iterate_of_r1_eq_zero hi]

/-- `ModInv`'s fuel brings the remainder to 0 (log entry 8). -/
theorem euclidRun_start_r1 (v : Int) {m : Nat} (hm : 0 < m) : (euclidRun m (euclidStart v m)).r1 = 0 := by
  have hfuel : (euclidStart v m).r1.toNat ≤ m := by simpa [euclidStart] using (modulo_lt v hm).le
  obtain ⟨hr1, _⟩ := euclidRun_spec 0 1 m (euclidStart v m) (by simp [euclidStart]) (by simp [euclidStart]) hfuel
    (one_dvd _) (one_dvd _)
  exact hr1

/-- `ModInv` reads its answer off the values where the rounds end, however many are made (R126). -/
theorem modInv_eq_euclidResult_iterate {v : Int} {m n : Nat} (hm : 0 < m)
    (hend : (euclidNext^[n] (euclidStart v m)).r1 = 0) :
    modInv v m = euclidResult m (euclidNext^[n] (euclidStart v m)) := by
  have hrun := euclidRun_start_r1 v hm
  rw [euclidRun_eq_iterate] at hrun
  rw [modInv, euclidRun_eq_iterate, euclidNext_iterate_unique hrun hend]

/-- The inverse engine's part of the rounds of a MODINV (10_state.md R31; log entry 6). -/
theorem workRounds_modinv_euclid (n : Nat) (o : Operands) (k : Work) :
    (workRounds n (encode .modinv) o k).euclid = euclidNext^[n] k.euclid := by
  induction n with
  | zero => rfl
  | succ n ih =>
    rw [Function.iterate_succ_apply', ← ih]
    rfl

/-- A MODINV starts with the first values of `ExtEuclid` (10_state.md R31, R126). -/
theorem workStart_modinv_euclid {o : Operands} (hm : o.mod ≠ 0) :
    (workStart (encode .modinv) o).euclid = euclidStart o.val.toInt o.mod.toNat := by
  have hne : modulus o ≠ 0 := mt modulus_eq_zero_iff.1 hm
  simp only [workStart, decode_encode_eq, if_neg hne]
  rfl

theorem workStart_modinv_mod_zero {o : Operands} (hm : o.mod = 0) : workStart (encode .modinv) o = Work.zero := by
  simp only [workStart, decode_encode_eq, if_pos (modulus_eq_zero_iff.2 hm)]

/-- Settles O25: the rounds have run the loop of `ExtEuclid` to its end, and MODINV commits what it reads off there. -/
theorem modinvWorkingValuesReachTheResult : Obligations.ModinvWorkingValuesReachTheResult := by
  intro s n e hm he hend
  have hiterate : euclidNext^[n] (euclidStart s.operands.val.toInt s.operands.mod.toNat) = e := by
    rw [← workStart_modinv_euclid hm, ← workRounds_modinv_euclid n s.operands]
    exact he
  have hinv : modInv s.operands.val.toInt s.operands.mod.toNat = euclidResult s.operands.mod.toNat e := by
    rw [← hiterate] at hend ⊢
    exact modInv_eq_euclidResult_iterate (mod_toNat_pos hm) hend
  constructor
  · intro hgcd
    exact exec_modinv_of_modInv_ok hm (hinv.trans (if_pos hgcd))
  · intro hgcd
    exact exec_modinv_of_modInv_error hm (hinv.trans (if_neg hgcd))

/-- Lamé's bound: remainders that survive `n` rounds started at the Fibonacci numbers or above, for two remainders in a row add up
to no more than the one before them. -/
theorem fib_le_of_euclidNext_iterate_r1_ne_zero (n : Nat) : ∀ e : Euclid, 0 ≤ e.r1 → e.r1 < e.r0 →
    (euclidNext^[n] e).r1 ≠ 0 → (Nat.fib (n + 2) : Int) ≤ e.r1 ∧ (Nat.fib (n + 3) : Int) ≤ e.r0 := by
  induction n with
  | zero =>
    intro e hnonneg hlt hne
    have hne' : e.r1 ≠ 0 := hne
    change (1 : Int) ≤ e.r1 ∧ (2 : Int) ≤ e.r0
    omega
  | succ n ih =>
    intro e hnonneg hlt hne
    have hr1 : e.r1 ≠ 0 := fun h => hne (by rw [euclidNext_iterate_of_r1_eq_zero h, h])
    have hpos : 0 < e.r1 := by omega
    rw [Function.iterate_succ_apply, euclidNext_of_r1_ne_zero hr1] at hne
    have hrem := euclidRound_r1 e
    have hquotient : 1 ≤ e.r0 / e.r1 := (Int.le_ediv_iff_mul_le hpos).2 (by omega)
    have hsum : e.r1 + e.r0 % e.r1 ≤ e.r0 := by
      linarith [Int.emod_add_mul_ediv e.r0 e.r1, le_mul_of_one_le_right hpos.le hquotient]
    obtain ⟨hfib, hfib'⟩ := ih (euclidRound e) (hrem ▸ Int.emod_nonneg _ hr1) (hrem ▸ Int.emod_lt_of_pos _ hpos) hne
    have hr0 : (euclidRound e).r0 = e.r1 := rfl
    have hadd : Nat.fib (n + 1 + 3) = Nat.fib (n + 2) + Nat.fib (n + 3) := Nat.fib_add_two
    exact ⟨hfib', by omega⟩

/-- Settles O26: 45 rounds are enough, since the 48th Fibonacci number is above `2^32`. -/
theorem modinvTakesFewerThanFiftyRounds : Obligations.ModinvTakesFewerThanFiftyRounds := by
  intro o
  by_cases hm : o.mod = 0
  · exact ⟨0, by decide, congrArg (·.euclid.r1) (workStart_modinv_mod_zero hm)⟩
  refine ⟨45, by decide, ?_⟩
  have hiterate : (workRounds 45 0x00000001#32 o (workStart 0x00000001#32 o)).euclid =
      euclidNext^[45] (euclidStart o.val.toInt o.mod.toNat) :=
    (workRounds_modinv_euclid 45 o _).trans (congrArg _ (workStart_modinv_euclid hm))
  rw [hiterate]
  by_contra hne
  have hlt : (euclidStart o.val.toInt o.mod.toNat).r1 < (euclidStart o.val.toInt o.mod.toNat).r0 :=
    Int.ofNat_lt.2 (modulo_lt _ (mod_toNat_pos hm))
  obtain ⟨_, hfib⟩ := fib_le_of_euclidNext_iterate_r1_ne_zero 45 _ (Int.natCast_nonneg _) hlt hne
  have hfib' : Nat.fib 48 ≤ o.mod.toNat := Int.ofNat_le.1 hfib
  have hvalue : Nat.fib 48 = 4807526976 := by norm_num
  have hbound := o.mod.isLt
  omega

end Sys2Proof.Machine
end

section
/-! PROOFS. Family 41_affine.md: what AFFENC and AFFDEC give for a letter and for any other character (R141 to R146), and the round
trip through both (R147). -/

namespace Sys2Proof.Machine

open Sys2Proof.Claims

/-! ### A map of the alphabet, applied to a character -/

/-- What both commands do with a character: a letter goes through `f` on its index and comes out in upper case, any other character
passes (R142, R146). -/
def mapLetter (f : Nat → Nat) (c : Nat) : Nat := if isLetter c then letterOf (f (letterIndex c)) else c

theorem mapLetter_upper (f : Nat → Nat) {c : Nat} (hlo : 0x41 ≤ c) (hhi : c ≤ 0x5A) :
    mapLetter f c = 0x41 + f (c - 0x41) := by
  have hupper : isUpper c = true := decide_eq_true ⟨hlo, hhi⟩
  simp [mapLetter, isLetter, letterIndex, letterOf, hupper]

theorem mapLetter_lower (f : Nat → Nat) {c : Nat} (hlo : 0x61 ≤ c) (hhi : c ≤ 0x7A) :
    mapLetter f c = 0x41 + f (c - 0x61) := by
  have hupper : isUpper c = false := decide_eq_false (by omega)
  have hlower : isLower c = true := decide_eq_true ⟨hlo, hhi⟩
  simp [mapLetter, isLetter, letterIndex, letterOf, hupper, hlower]

theorem mapLetter_other (f : Nat → Nat) {c : Nat} (hupper : ¬ (0x41 ≤ c ∧ c ≤ 0x5A)) (hlower : ¬ (0x61 ≤ c ∧ c ≤ 0x7A)) :
    mapLetter f c = c := by
  simp [mapLetter, isLetter, isUpper, isLower, hupper, hlower]

/-- The three kinds of character: a letter with its index, in upper or in lower case, and any other. -/
theorem mapLetter_cases (c : Nat) :
    (∃ x < 26, upperCode c = 0x41 + x ∧ ∀ f, mapLetter f c = 0x41 + f x) ∨ (upperCode c = c ∧ ∀ f, mapLetter f c = c) := by
  unfold upperCode
  by_cases hlower : 0x61 ≤ c ∧ c ≤ 0x7A
  · exact .inl ⟨c - 0x61, by omega, by rw [if_pos hlower]; omega, fun f => mapLetter_lower f hlower.1 hlower.2⟩
  rw [if_neg hlower]
  by_cases hupper : 0x41 ≤ c ∧ c ≤ 0x5A
  · exact .inl ⟨c - 0x41, by omega, by omega, fun f => mapLetter_upper f hupper.1 hupper.2⟩
  · exact .inr ⟨rfl, fun f => mapLetter_other f hupper hlower⟩

/-- A map of the alphabet into itself gives a character again, so CHR can hold it. -/
theorem mapLetter_lt {f : Nat → Nat} (hf : ∀ x, f x < 26) {c : Nat} (hc : c < 256) : mapLetter f c < 256 := by
  obtain ⟨x, _, _, hmap⟩ | ⟨_, hmap⟩ := mapLetter_cases c
  · have := hf x
    rw [hmap]
    omega
  · rwa [hmap]

/-- Undoing the map of the alphabet gives the upper-case form of the character (R147). -/
theorem mapLetter_mapLetter {f g : Nat → Nat} (hf : ∀ x, f x < 26) (hg : ∀ x < 26, g (f x) = x) (c : Nat) :
    mapLetter g (mapLetter f c) = upperCode c := by
  obtain ⟨x, hx, hcode, hmap⟩ | ⟨hcode, hmap⟩ := mapLetter_cases c
  · have hfx := hf x
    rw [hmap, mapLetter_upper g (by omega) (by omega), Nat.add_sub_cancel_left, hg x hx, hcode]
  · rw [hmap, hmap, hcode]

/-! ### What the two commands end with -/

/-- The test for a letter, as AFFENC and AFFDEC end with it. -/
theorem ite_isLetter_eq_ok_mapLetter (f : Nat → Nat) (c : Nat) :
    (if isLetter c then .ok (encodeInt (letterOf (f (letterIndex c)))) else .ok (encodeInt c) : Except Err Results) =
      .ok (encodeInt (mapLetter f c)) := by
  rw [mapLetter]
  split <;> rfl

/-- AFFENC always ends without error (R142). -/
theorem exec_affenc (s : State) : exec .affenc s = .next (endsOk s (BitVec.ofNat 32
    (mapLetter (affEncIdx s.operands.afa.toInt s.operands.afb.toInt) s.operands.chr.toNat)) 0 0) := by
  have houtcome : affencOutcome s = .ok (encodeInt
      (mapLetter (affEncIdx s.operands.afa.toInt s.operands.afb.toInt) s.operands.chr.toNat)) :=
    ite_isLetter_eq_ok_mapLetter _ _
  rw [exec_eq_commit, commandOutcome, houtcome]
  rfl

/-- AFFDEC looks for the inverse before the character (R146). -/
theorem exec_affdec_of_gcd_ne_one {s : State} (h : Int.gcd s.operands.afa.toInt 26 ≠ 1) :
    exec .affdec s = .next (endsErr s 1) := by
  have hinv : modInv (sint s.operands.afa) Config.affineModulus = .error .noInverse := modInv_error _ (by decide) h
  rw [exec_eq_commit, commandOutcome, affdecOutcome, hinv]
  rfl

theorem exec_affdec_of_isInverse {s : State} {i : Nat} (h : IsInverse s.operands.afa.toInt 26 i) :
    exec .affdec s = .next (endsOk s (BitVec.ofNat 32
      (mapLetter (affDecIdx i s.operands.afb.toInt) s.operands.chr.toNat)) 0 0) := by
  have hinv : modInv (sint s.operands.afa) Config.affineModulus = .ok i := (modInv_eq_ok_iff (by decide)).2 h
  have houtcome : affdecOutcome s = .ok (encodeInt
      (mapLetter (affDecIdx i s.operands.afb.toInt) s.operands.chr.toNat)) := by
    rw [affdecOutcome, hinv]
    exact ite_isLetter_eq_ok_mapLetter _ _
  rw [exec_eq_commit, commandOutcome, houtcome]
  rfl

theorem exists_isInverse_of_gcd_eq_one {a : Int} (h : Int.gcd a 26 = 1) : ∃ i, IsInverse a 26 i := by
  obtain ⟨i, _, hi⟩ := modInv_ok a (m := 26) (by decide) h
  exact ⟨i, hi⟩

/-- The affine map of a letter whose index is `c` less the code of its alphabet's first letter (R141). -/
theorem affEncIdx_sub (a b : Int) {c base : Nat} (h : base ≤ c) :
    affEncIdx a b (c - base) = ((a * ((c : Int) - base) + b) % 26).toNat := by
  rw [affEncIdx, Nat.cast_sub h]
  rfl

/-- The inverse map of a letter whose index is `c` less the code of its alphabet's first letter (R145). -/
theorem affDecIdx_sub (i : Nat) (b : Int) {c base : Nat} (h : base ≤ c) :
    affDecIdx i b (c - base) = (((i : Int) * ((c : Int) - base - b)) % 26).toNat := by
  rw [affDecIdx, Nat.cast_sub h]
  rfl

/-- Settles O27: by the kind of the character. -/
theorem affencMapsLettersAndPassesOthers : Obligations.AffencMapsLettersAndPassesOthers := by
  refine ⟨decode_encode_eq .affenc, ?_⟩
  rintro s c rfl
  rw [exec_affenc]
  refine ⟨fun hlo hhi => ?_, fun hlo hhi => ?_, fun hupper hlower => ?_⟩
  · rw [mapLetter_upper _ hlo hhi, affEncIdx_sub _ _ hlo]
    rfl
  · rw [mapLetter_lower _ hlo hhi, affEncIdx_sub _ _ hlo]
    rfl
  · rw [mapLetter_other _ hupper hlower]

/-- Settles O28: the error needs no look at the character; with an inverse, by the kind of the character. -/
theorem affdecInvertsTheMapOrHasNoInverse : Obligations.AffdecInvertsTheMapOrHasNoInverse := by
  refine ⟨decode_encode_eq .affdec, ?_⟩
  rintro s c rfl
  refine ⟨exec_affdec_of_gcd_ne_one, fun hgcd => ?_⟩
  obtain ⟨i, hi⟩ := exists_isInverse_of_gcd_eq_one hgcd
  rw [exec_affdec_of_isInverse hi]
  refine ⟨i, hi, fun hlo hhi => ?_, fun hlo hhi => ?_, fun hupper hlower => ?_⟩
  · rw [mapLetter_upper _ hlo hhi, affDecIdx_sub _ _ hlo]
    rfl
  · rw [mapLetter_lower _ hlo hhi, affDecIdx_sub _ _ hlo]
    rfl
  · rw [mapLetter_other _ hupper hlower]

/-! ### The round trip -/

theorem affEncIdx_lt (a b : Int) (x : Nat) : affEncIdx a b x < 26 := modulo_lt _ (by decide)

/-- The inverse map undoes the affine map on the alphabet: `i * (a * x + b - b)` is `x` modulo 26 (R147). -/
theorem affDecIdx_affEncIdx {a : Int} {i : Nat} (h : IsInverse a 26 i) (b : Int) {x : Nat} (hx : x < 26) :
    affDecIdx i b (affEncIdx a b x) = x := by
  have hmul : a * i ≡ 1 [ZMOD 26] := h.2
  have henc : (affEncIdx a b x : Int) ≡ a * x + b [ZMOD 26] := by
    rw [affEncIdx, modulo_cast _ (by decide)]
    exact Int.mod_modEq _ _
  refine (modulo_eq_iff (by decide)).2 ⟨hx, ?_⟩
  calc (i : Int) * (affEncIdx a b x - b) ≡ i * (a * x + b - b) [ZMOD 26] := (henc.sub_right b).mul_left _
    _ = a * i * x := by ring
    _ ≡ 1 * x [ZMOD 26] := hmul.mul_right _
    _ = x := one_mul _

/-- AFFENC's result fits CHR whole. -/
theorem affenc_result_toNat (a b : Int) (c : Byte) :
    ((BitVec.ofNat 32 (mapLetter (affEncIdx a b) c.toNat)).setWidth 8).toNat = mapLetter (affEncIdx a b) c.toNat := by
  have hlt := mapLetter_lt (affEncIdx_lt a b) c.isLt
  rw [BitVec.toNat_setWidth, BitVec.toNat_ofNat]
  omega

/-- AFFDEC with the key of AFFENC and AFFENC's result as its character gives the upper-case form of the character (R147). -/
theorem exec_affdec_of_affenc_result {s s' : State} (h : Int.gcd s.operands.afa.toInt 26 = 1)
    (hs' : s'.operands = { s.operands with chr := (BitVec.ofNat 32
      (mapLetter (affEncIdx s.operands.afa.toInt s.operands.afb.toInt) s.operands.chr.toNat)).setWidth 8 }) :
    exec .affdec s' = .next (endsOk s' (BitVec.ofNat 32 (upperCode s.operands.chr.toNat)) 0 0) := by
  obtain ⟨i, hi⟩ := exists_isInverse_of_gcd_eq_one h
  have hi' : IsInverse s'.operands.afa.toInt 26 i := by rwa [hs']
  rw [exec_affdec_of_isInverse hi', hs', affenc_result_toNat,
    mapLetter_mapLetter (affEncIdx_lt _ _) fun _ => affDecIdx_affEncIdx hi _]

/-- The gcd is that of the residue, so 26 residues decide (R147). -/
theorem gcd_twentySix_eq_one_iff (a : Int) :
    Int.gcd a 26 = 1 ↔ a % 26 ∈ ([1, 3, 5, 7, 9, 11, 15, 17, 19, 21, 23, 25] : List Int) := by
  have hresidues : ∀ r : Nat, r < 26 → (Int.gcd 26 (r : Int) = 1 ↔
      (r : Int) ∈ ([1, 3, 5, 7, 9, 11, 15, 17, 19, 21, 23, 25] : List Int)) := by decide
  have hgcd : Int.gcd 26 (modulo a 26 : Int) = Int.gcd a 26 := gcd_modulo a (m := 26) (by decide)
  have hcast : (modulo a 26 : Int) = a % 26 := modulo_cast a (m := 26) (by decide)
  rw [← hgcd, ← hcast]
  exact hresidues _ (modulo_lt a (by decide))

/-- An inverse of the residue is what `ModInv` answers for the value (R121, R147). -/
theorem modInv_twentySix_of_residue {a r : Int} {i : Nat} (ha : a % 26 = r) (hi : i < 26 ∧ r * i % 26 = 1) :
    modInv a 26 = .ok i := by
  have hresidue : a % 26 = r % 26 := by omega
  rw [modInv_congr (m := 26) hresidue]
  exact (modInv_eq_ok_iff (by decide)).2 hi

/-- Settles O29: the inverse map undoes the affine map, and the listed pairs are checked to be inverses one by one. -/
theorem affineRoundTripGivesUpperCase : Obligations.AffineRoundTripGivesUpperCase := by
  refine ⟨fun s hgcd => ⟨_, exec_affenc s, rfl, fun s' => exec_affdec_of_affenc_result hgcd⟩,
    gcd_twentySix_eq_one_iff, fun x hx a ha => modInv_twentySix_of_residue ha ?_⟩
  clear ha
  revert x
  decide

end Sys2Proof.Machine
end

section
/-! PROOFS. Family 42_ecc_point.md: the curve check (R162), the prologue of the point commands (R166, R167), addition case by case
(R164, R170), doubling (R165, R172), commutativity and closure (R176), and the inverses a prime modulus always has (R174). -/

namespace Sys2Proof.Machine

open Sys2Proof.Claims

/-! ### The points in the operand registers -/

theorem modulus_ne_zero {o : Operands} (hm : o.mod ≠ 0) : modulus o ≠ 0 := mt modulus_eq_zero_iff.1 hm

theorem point1_of_inf {o : Operands} (h : inf1 o) : point1 o = .inf := if_pos h

theorem point2_of_inf {o : Operands} (h : inf2 o) : point2 o = .inf := if_pos h

theorem point1_of_not_inf {o : Operands} (h : ¬ inf1 o) : point1 o = .aff o.x1.toNat o.y1.toNat := if_neg h

theorem point2_of_not_inf {o : Operands} (h : ¬ inf2 o) : point2 o = .aff o.x2.toNat o.y2.toNat := if_neg h

theorem onCurve_point1_iff {o : Operands} (hm : o.mod ≠ 0) :
    onCurve (point1 o) (curveA o) (curveB o) (modulus o) = true ↔ P1OnCurve o :=
  onCurve_decodePoint_iff hm _ _ _

theorem onCurve_point2_iff {o : Operands} (hm : o.mod ≠ 0) :
    onCurve (point2 o) (curveA o) (curveB o) (modulus o) = true ↔ P2OnCurve o :=
  onCurve_decodePoint_iff hm _ _ _

/-! ### ONCURVE -/

/-- Past its modulus test ONCURVE commits the answer of the curve check (R162). -/
theorem exec_oncurve {s : State} (hm : s.operands.mod ≠ 0) : exec .oncurve s = .next (commit (.ok (encodeTruth
    (onCurve (point1 s.operands) (curveA s.operands) (curveB s.operands) (modulus s.operands)))) s) := by
  have hchecked : checkedModulus s.operands = .ok (modulus s.operands) := if_neg (modulus_ne_zero hm)
  rw [exec_eq_commit, commandOutcome, oncurveOutcome, hchecked]

theorem exec_oncurve_of_p1OnCurve {s : State} (hm : s.operands.mod ≠ 0) (h : P1OnCurve s.operands) :
    exec .oncurve s = .next (endsOk s 1 0 0) := by
  rw [exec_oncurve hm, (onCurve_point1_iff hm).2 h]
  rfl

theorem exec_oncurve_of_not_p1OnCurve {s : State} (hm : s.operands.mod ≠ 0) (h : ¬ P1OnCurve s.operands) :
    exec .oncurve s = .next (endsOk s 0 0 0) := by
  have hoff : onCurve (point1 s.operands) (curveA s.operands) (curveB s.operands) (modulus s.operands) = false :=
    Bool.eq_false_iff.2 (mt (onCurve_point1_iff hm).1 h)
  rw [exec_oncurve hm, hoff]
  rfl

/-- Settles O31: the modulus test comes first, and past it the answer is the curve check's. -/
theorem oncurveTestsTheCongruence : Obligations.OncurveTestsTheCongruence :=
  ⟨decode_encode_eq .oncurve, fun _ =>
    ⟨exec_of_mod_eq_zero (by simp), exec_oncurve_of_p1OnCurve, exec_oncurve_of_not_p1OnCurve⟩⟩

/-! ### The prologue of the point commands -/

/-- The point check accepts a list of points when CTRL.PCHK is off or all are on the curve (R166). -/
theorem pointsAccepted_iff {s : State} {points : List Point} : pointsAccepted s points = true ↔
    (PchkOn s → ∀ P ∈ points, onCurve P (curveA s.operands) (curveB s.operands) (modulus s.operands) = true) := by
  unfold pointsAccepted pointCheck PchkOn
  cases s.ctrl.getLsbD 1 <;> simp

theorem pointsAccepted_of_paddReady {s : State} (h : PaddReady s) :
    pointsAccepted s [point1 s.operands, point2 s.operands] = true := by
  obtain ⟨hm, hcheck⟩ := h
  refine pointsAccepted_iff.2 fun hon => ?_
  obtain ⟨h1, h2⟩ := hcheck hon
  simp [(onCurve_point1_iff hm).2 h1, (onCurve_point2_iff hm).2 h2]

/-- A point off the curve fails the point check (R166). -/
theorem pointsAccepted_eq_false {s : State} {points : List Point} (hon : PchkOn s) {P : Point} (hP : P ∈ points)
    (hoff : onCurve P (curveA s.operands) (curveB s.operands) (modulus s.operands) ≠ true) :
    pointsAccepted s points = false :=
  Bool.eq_false_iff.2 fun haccepted => hoff (pointsAccepted_iff.1 haccepted hon P hP)

/-- The point check comes before the arithmetic (R167). -/
theorem pointCommand_rejected {s : State} {points : List Point} (hm : modulus s.operands ≠ 0)
    (hp : pointsAccepted s points = false) (arithmetic : Except Err Point) :
    pointCommand s points arithmetic = .error .invalidPoint := by
  simp [pointCommand, checkedModulus, hm, hp]

/-- The point check asks about the points as a set (R166). -/
theorem pointsAccepted_congr_mem {points points' : List Point} (h : ∀ P, P ∈ points ↔ P ∈ points') (s : State) :
    pointsAccepted s points = pointsAccepted s points' := by
  rw [Bool.eq_iff_iff, pointsAccepted_iff, pointsAccepted_iff]
  simp only [h]

theorem pointCommand_congr_mem {points points' : List Point} (h : ∀ P, P ∈ points ↔ P ∈ points') (s : State)
    (arithmetic : Except Err Point) : pointCommand s points arithmetic = pointCommand s points' arithmetic := by
  unfold pointCommand
  rw [pointsAccepted_congr_mem h]

/-- Past its prologue a point command commits what its arithmetic gives (R167). -/
theorem pointCommand_eq_map {s : State} {points : List Point} (hm : s.operands.mod ≠ 0)
    (hp : pointsAccepted s points = true) (arithmetic : Except Err Point) :
    pointCommand s points arithmetic = arithmetic.map encodePoint := by
  rw [pointCommand_accepted (modulus_ne_zero hm) hp]
  cases arithmetic <;> rfl

/-- PADD past its prologue (R168). -/
theorem exec_padd {s : State} (h : PaddReady s) : exec .padd s = .next (commit ((pointAdd (point1 s.operands)
    (point2 s.operands) s.operands.ca.toInt s.operands.mod.toNat).map encodePoint) s) := by
  rw [exec_eq_commit, commandOutcome, paddOutcome, pointCommand_eq_map h.1 (pointsAccepted_of_paddReady h)]
  rfl

/-- PDBL past its prologue (R172); the doubler gives what the adder gives (R165). -/
theorem exec_pdbl {s : State} (h : OnePointReady s) : exec .pdbl s = .next (commit ((pointAdd (point1 s.operands)
    (point1 s.operands) s.operands.ca.toInt s.operands.mod.toNat).map encodePoint) s) := by
  rw [exec_eq_commit, commandOutcome, pdblOutcome, pointCommand_eq_map h.1 (pointsAccepted_of_onePointReady h),
    pointDbl_eq_pointAdd]
  rfl

theorem exec_pdbl_of_not_p1OnCurve {s : State} (hm : s.operands.mod ≠ 0) (hon : PchkOn s)
    (hoff : ¬ P1OnCurve s.operands) : exec .pdbl s = .next (endsErr s 2) := by
  have hrejected : pointsAccepted s [point1 s.operands] = false :=
    pointsAccepted_eq_false hon (List.mem_singleton_self _) (mt (onCurve_point1_iff hm).1 hoff)
  rw [exec_eq_commit, commandOutcome, pdblOutcome, pointCommand_rejected (modulus_ne_zero hm) hrejected]
  rfl

/-! ### Addition, case by case -/

theorem pointAdd_inf_right (P : Point) (a : Int) (p : Nat) : pointAdd P .inf a p = .ok P := by cases P <;> rfl

theorem pointAdd_of_opposite {x1 y1 x2 y2 : Nat} (hc : x1 = x2 ∧ (y1 ≠ y2 ∨ y1 = 0)) (a : Int) (p : Nat) :
    pointAdd (.aff x1 y1) (.aff x2 y2) a p = .ok .inf := if_pos hc

theorem pointAdd_of_x_ne {x1 y1 x2 y2 : Nat} (hx : x1 ≠ x2) (a : Int) (p : Nat) :
    pointAdd (.aff x1 y1) (.aff x2 y2) a p = (chordSlope x1 y1 x2 y2 p).map (thirdPoint · x1 y1 x2 p) := by
  simp only [pointAdd, slopeOf, hx, false_and, if_false]
  cases chordSlope x1 y1 x2 y2 p <;> rfl

theorem pointAdd_self {x y : Nat} (hy : y ≠ 0) (a : Int) (p : Nat) :
    pointAdd (.aff x y) (.aff x y) a p = (tangentSlope x y a p).map (thirdPoint · x y x p) := by
  simp only [pointAdd, slopeOf, hy, ne_eq, not_true, or_self, and_false, if_true, if_false]
  cases tangentSlope x y a p <;> rfl

theorem chordSlope_of_isInverse {x1 y1 x2 y2 p i : Nat} (hp : 0 < p) (h : IsInverse ((x2 : Int) - x1) p i) :
    chordSlope x1 y1 x2 y2 p = .ok (modulo (((y2 : Int) - y1) * i) p) := by
  rw [chordSlope, (modInv_eq_ok_iff hp).2 h]

theorem chordSlope_of_gcd_ne_one {x1 y1 x2 y2 p : Nat} (hp : 0 < p) (h : Int.gcd ((x2 : Int) - x1) p ≠ 1) :
    chordSlope x1 y1 x2 y2 p = .error .noInverse := by
  rw [chordSlope, modInv_error _ hp h]

theorem tangentSlope_of_isInverse {x y p i : Nat} (a : Int) (hp : 0 < p) (h : IsInverse (2 * (y : Int)) p i) :
    tangentSlope x y a p = .ok (modulo ((3 * (x : Int) ^ 2 + a) * i) p) := by
  rw [tangentSlope, (modInv_eq_ok_iff hp).2 h, sq]

theorem tangentSlope_of_gcd_ne_one {x y p : Nat} (a : Int) (hp : 0 < p) (h : Int.gcd (2 * (y : Int)) p ≠ 1) :
    tangentSlope x y a p = .error .noInverse := by
  rw [tangentSlope, modInv_error _ hp h]

/-- The registers a third point leaves, with the slope as a residue (R164 (5)). -/
theorem encodePoint_thirdPoint {p : Nat} (hp : 0 < p) (v : Int) (x1 y1 x2 : Nat) :
    encodePoint (thirdPoint (modulo v p) x1 y1 x2 p) =
      { res0 := residueWord (slopeX (v % p) x1 x2 p) p, res1 := residueWord (slopeY (v % p) x1 y1 x2 p) p, rinf := 0 } := by
  simp only [thirdPoint, encodePoint, residueWord, slopeX, slopeY, modulo_cast _ hp, ← sq, Int.emod_emod]
  rfl

/-- A coordinate copied from an operand register comes back whole (R170). -/
theorem zext_toNat (w : Word) : zext w.toNat = w := BitVec.eq_of_toNat_eq (by simp [zext])

theorem commit_encodePoint_toNat (x y : Word) (s : State) :
    commit (.ok (encodePoint (.aff x.toNat y.toNat))) s = endsOk s x y 0 := by
  simp only [encodePoint, zext_toNat]
  rfl

/-- Settles O32: `Inf` is the identity of `Add`, on either side. -/
theorem paddIdentityReturnsTheOtherOperand : Obligations.PaddIdentityReturnsTheOtherOperand := by
  intro s hready
  rw [exec_padd hready]
  refine ⟨fun h1 h2 => ?_, fun h1 h2 => ?_, fun h1 h2 => ?_⟩
  · rw [point1_of_inf h1, point2_of_inf h2]
    rfl
  · rw [point1_of_inf h1, point2_of_not_inf h2]
    exact congrArg _ (commit_encodePoint_toNat _ _ s)
  · rw [point1_of_not_inf h1, point2_of_inf h2]
    exact congrArg _ (commit_encodePoint_toNat _ _ s)

/-- Settles O33: registers are equal when the decoded integers are. -/
theorem paddOfInversePointsIsInf : Obligations.PaddOfInversePointsIsInf := by
  intro s hready h1 h2 hx hy
  have hopposite : s.operands.x1.toNat = s.operands.x2.toNat ∧
      (s.operands.y1.toNat ≠ s.operands.y2.toNat ∨ s.operands.y1.toNat = 0) :=
    ⟨congrArg _ hx, hy.imp BitVec.toNat_ne_iff_ne.2 (congrArg BitVec.toNat)⟩
  rw [exec_padd hready, point1_of_not_inf h1, point2_of_not_inf h2, pointAdd_of_opposite hopposite]
  rfl

/-- Settles O34: the chord's slope exists exactly when `x2 - x1` has its inverse. -/
theorem paddOfDistinctXFollowsTheChord : Obligations.PaddOfDistinctXFollowsTheChord := by
  rintro s _ _ _ _ _ hready h1 h2 hx rfl rfl rfl rfl rfl
  have hp := mod_toNat_pos hready.1
  rw [exec_padd hready, point1_of_not_inf h1, point2_of_not_inf h2, pointAdd_of_x_ne (BitVec.toNat_ne_iff_ne.2 hx)]
  constructor
  · intro hgcd
    rw [chordSlope_of_gcd_ne_one hp hgcd]
    rfl
  · intro hgcd
    obtain ⟨i, _, hi⟩ := modInv_ok _ hp hgcd
    refine ⟨i, _, hi, rfl, ?_⟩
    rw [chordSlope_of_isInverse hp hi, Except.map, Except.map, encodePoint_thirdPoint hp]
    rfl

/-! ### Doubling -/

/-- A point with `y ≠ 0` added to itself has no sum when `2 * y` has no inverse (R164 (3), R174). -/
theorem commit_pointAdd_self_of_gcd_ne_one {x y p : Nat} (a : Int) (hp : 0 < p) (hy : y ≠ 0)
    (hgcd : Int.gcd (2 * (y : Int)) p ≠ 1) (s : State) :
    commit ((pointAdd (.aff x y) (.aff x y) a p).map encodePoint) s = endsErr s 1 := by
  rw [pointAdd_self hy, tangentSlope_of_gcd_ne_one a hp hgcd]
  rfl

/-- A point with `y ≠ 0` added to itself gives the tangent's third point (R164 (3), (5)). -/
theorem commit_pointAdd_self_of_isInverse {x y p i : Nat} (a : Int) (hp : 0 < p) (hy : y ≠ 0)
    (hi : IsInverse (2 * (y : Int)) p i) (s : State) :
    commit ((pointAdd (.aff x y) (.aff x y) a p).map encodePoint) s =
      endsOk s (residueWord (slopeX ((3 * (x : Int) ^ 2 + a) * i % p) x x p) p)
        (residueWord (slopeY ((3 * (x : Int) ^ 2 + a) * i % p) x y x p) p) 0 := by
  rw [pointAdd_self hy, tangentSlope_of_isInverse a hp hi, Except.map, Except.map, encodePoint_thirdPoint hp]
  rfl

/-- Settles O35: P2 is P1, so the sum is the tangent's. -/
theorem paddOfEqualPointsFollowsTheTangent : Obligations.PaddOfEqualPointsFollowsTheTangent := by
  rintro s _ _ _ _ hready h1 h2 hx hy hy0 rfl rfl rfl rfl
  have hp := mod_toNat_pos hready.1
  have hy0' : s.operands.y1.toNat ≠ 0 := BitVec.toNat_ne_iff_ne.2 hy0
  rw [exec_padd hready, point1_of_not_inf h1, point2_of_not_inf h2, ← hx, ← hy]
  constructor
  · intro hgcd
    rw [commit_pointAdd_self_of_gcd_ne_one _ hp hy0' hgcd]
  · intro hgcd
    obtain ⟨i, _, hi⟩ := modInv_ok _ hp hgcd
    exact ⟨i, _, hi, rfl, congrArg _ (commit_pointAdd_self_of_isInverse _ hp hy0' hi s)⟩

/-- A point with `y = 0` and `Inf` double to `Inf` (R164 (2), R165). -/
theorem pointAdd_point1_self {o : Operands} (h : inf1 o ∨ o.y1.toNat = 0) (a : Int) (p : Nat) :
    pointAdd (point1 o) (point1 o) a p = .ok .inf := by
  by_cases hinf : inf1 o
  · rw [point1_of_inf hinf]
    rfl
  · rw [point1_of_not_inf hinf]
    exact pointAdd_of_opposite ⟨rfl, .inr (h.resolve_left hinf)⟩ a p

/-- Settles O36: the prologue's errors first, then the cases of doubling. -/
theorem pdblDoublesThePoint : Obligations.PdblDoublesThePoint := by
  rintro s _ _ _ _ rfl rfl rfl rfl
  refine ⟨fun hm => ?badModulus, fun hm => ?invalidPoint, fun hready h => ?inf, fun hready h1 hy hgcd => ?noInverse,
    fun hready h1 hy hgcd => ?tangent⟩
  case badModulus => exact exec_of_mod_eq_zero (by simp) (modulus_eq_zero_iff.1 hm)
  case invalidPoint => exact exec_pdbl_of_not_p1OnCurve (mt modulus_eq_zero_iff.2 hm)
  case inf =>
    rw [exec_pdbl hready, pointAdd_point1_self (h.imp_right Int.ofNat_eq_zero.1)]
    rfl
  case noInverse =>
    rw [exec_pdbl hready, point1_of_not_inf h1, commit_pointAdd_self_of_gcd_ne_one _ (mod_toNat_pos hready.1)
      (mt Int.ofNat_eq_zero.2 hy) hgcd]
  case tangent =>
    have hp := mod_toNat_pos hready.1
    obtain ⟨i, _, hi⟩ := modInv_ok _ hp hgcd
    refine ⟨i, _, hi, rfl, ?_⟩
    rw [exec_pdbl hready, point1_of_not_inf h1, commit_pointAdd_self_of_isInverse _ hp (mt Int.ofNat_eq_zero.2 hy) hi]

/-! ### One outcome from two states -/

/-- Two commands with one outcome end with one error code and, without error, one result (30_encoding.md R96). -/
theorem exec_agrees_of_outcome_eq {i j : Instr} {s s' : State} (h : commandOutcome i s = commandOutcome j s') :
    ∃ t t' : State, exec i s = .next t ∧ exec j s' = .next t' ∧ t.status.err = t'.status.err ∧
      (t.status.err = 0 → t.results = t'.results) := by
  refine ⟨_, _, exec_eq_commit i s, exec_eq_commit j s', ?_⟩
  rw [h]
  exact commit_agrees _ s s'

theorem checkedView_congr {s s' : State} (hctrl : s'.ctrl = s.ctrl) (hcb : s'.operands.cb = s.operands.cb) :
    checkedView s' = checkedView s := by
  unfold checkedView pointCheck
  rw [hctrl, hcb]

/-- Registers and flag fix the point (30_encoding.md R104). -/
theorem decodePoint_eq {i j : Bool} {x y x' y' : Word} (hinf : i = true ↔ j = true) (hx : x = x') (hy : y = y') :
    decodePoint i x y = decodePoint j x' y' := by
  rw [Bool.eq_iff_iff.2 hinf, hx, hy]

/-- Settles O37: with P2 equal to P1 the check asks about one point, and the doubler's formulas are the adder's. -/
theorem pdblIsPaddOfThePointWithItself : Obligations.PdblIsPaddOfThePointWithItself := by
  intro s s' hctrl hmod hca hcb hx1 hy1 hx2 hy2 hinf1 hinf2
  have hpoint1 : point1 s'.operands = point1 s.operands := decodePoint_eq hinf1 hx1 hy1
  have hpoint2 : point2 s'.operands = point1 s.operands := decodePoint_eq hinf2 hx2 hy2
  have hcurveA : curveA s'.operands = curveA s.operands := congrArg sint hca
  have hmodulus : modulus s'.operands = modulus s.operands := congrArg uint hmod
  refine exec_agrees_of_outcome_eq ?_
  rw [commandOutcome, commandOutcome, pdblOutcome, paddOutcome, hpoint1, hpoint2,
    pointCommand_congr hmod hca (checkedView_congr hctrl hcb), pointDbl_eq_pointAdd, hcurveA, hmodulus]
  exact pointCommand_congr_mem (by simp) s _

/-! ### Addition commutes -/

/-- The inverse of the negative is the negative of the inverse. -/
theorem isInverse_neg {v : Int} {p i : Nat} (hp : 0 < p) (h : IsInverse v p i) : IsInverse (-v) p (modulo (-i) p) := by
  refine ⟨modulo_lt _ hp, ?_⟩
  have hcast : (modulo (-i) p : Int) ≡ -i [ZMOD p] := by
    rw [modulo_cast _ hp]
    exact Int.mod_modEq _ _
  calc -v * (modulo (-i) p : Int) ≡ -v * -i [ZMOD p] := hcast.mul_left _
    _ = v * i := neg_mul_neg _ _
    _ ≡ 1 [ZMOD p] := h.2

/-- The chord through two points has one slope from either end (R164 (4)). -/
theorem chordSlope_comm (x1 y1 x2 y2 : Nat) {p : Nat} (hp : 0 < p) :
    chordSlope x1 y1 x2 y2 p = chordSlope x2 y2 x1 y1 p := by
  by_cases hgcd : Int.gcd ((x2 : Int) - x1) p = 1
  · obtain ⟨i, _, hi⟩ := modInv_ok _ hp hgcd
    have hneg : IsInverse ((x1 : Int) - x2) p (modulo (-i) p) := neg_sub (x2 : Int) x1 ▸ isInverse_neg hp hi
    rw [chordSlope_of_isInverse hp hi, chordSlope_of_isInverse hp hneg, modulo_cast _ hp]
    refine congrArg _ (modulo_congr ?_)
    calc ((y2 : Int) - y1) * i = (y1 - y2) * -i := by ring
      _ ≡ (y1 - y2) * (-i % p) [ZMOD p] := (Int.mod_modEq _ _).symm.mul_left _
  · have hgcd' : Int.gcd ((x1 : Int) - x2) p ≠ 1 := by rwa [← neg_sub, Int.neg_gcd]
    rw [chordSlope_of_gcd_ne_one hp hgcd, chordSlope_of_gcd_ne_one hp hgcd']

/-- The chord's slope times `x2 - x1` is `y2 - y1` (R164 (4)). -/
theorem chordSlope_mul {x1 y1 x2 y2 p m : Nat} (hp : 0 < p) (h : chordSlope x1 y1 x2 y2 p = .ok m) :
    (m : Int) * (x2 - x1) ≡ y2 - y1 [ZMOD p] := by
  by_cases hgcd : Int.gcd ((x2 : Int) - x1) p = 1
  · obtain ⟨i, _, hi⟩ := modInv_ok _ hp hgcd
    rw [chordSlope_of_isInverse hp hi] at h
    cases h
    rw [modulo_cast _ hp]
    calc ((y2 : Int) - y1) * i % p * (x2 - x1) ≡ (y2 - y1) * i * (x2 - x1) [ZMOD p] := (Int.mod_modEq _ _).mul_right _
      _ = (y2 - y1) * ((x2 - x1) * i) := by ring
      _ ≡ (y2 - y1) * 1 [ZMOD p] := Int.ModEq.mul_left _ hi.2
      _ = y2 - y1 := mul_one _
  · rw [chordSlope_of_gcd_ne_one hp hgcd] at h
    cases h

/-- A chord's third point is one from either end: `m * (x1 - x2)` is `y1 - y2` (R164 (5)). -/
theorem thirdPoint_comm {x1 y1 x2 y2 p m : Nat} (hp : 0 < p) (h : chordSlope x1 y1 x2 y2 p = .ok m) :
    thirdPoint m x1 y1 x2 p = thirdPoint m x2 y2 x1 p := by
  have hx : (m : Int) * m - x1 - x2 = m * m - x2 - x1 := by ring
  rw [thirdPoint, thirdPoint, hx]
  refine congrArg _ (modulo_congr ?_)
  generalize modulo ((m : Int) * m - x2 - x1) p = x3
  calc (m : Int) * (x1 - x3) - y1 = m * (x2 - x3) - m * (x2 - x1) - y1 := by ring
    _ ≡ m * (x2 - x3) - (y2 - y1) - y1 [ZMOD p] := ((chordSlope_mul hp h).sub_left _).sub_right _
    _ = m * (x2 - x3) - y2 := by ring

/-- `Add` commutes, on a curve or not, errors included (R164, R176). -/
theorem pointAdd_comm (P Q : Point) (a : Int) {p : Nat} (hp : 0 < p) : pointAdd P Q a p = pointAdd Q P a p := by
  obtain _ | ⟨x1, y1⟩ := P
  · exact (pointAdd_inf_right Q a p).symm
  obtain _ | ⟨x2, y2⟩ := Q
  · rfl
  by_cases hx : x1 = x2
  · subst hx
    by_cases hy : y1 = y2
    · rw [hy]
    · rw [pointAdd_of_opposite ⟨rfl, .inl hy⟩, pointAdd_of_opposite ⟨rfl, .inl (Ne.symm hy)⟩]
  · rw [pointAdd_of_x_ne hx, pointAdd_of_x_ne (Ne.symm hx), chordSlope_comm x2 y2 x1 y1 hp]
    cases hm : chordSlope x1 y1 x2 y2 p with
    | error e => rfl
    | ok m => exact congrArg _ (thirdPoint_comm hp hm)

/-- Settles O38: the check asks about the same points, and `Add` commutes. -/
theorem paddCommutes : Obligations.PaddCommutes := by
  intro s s' hctrl hmod hca hcb hx1 hy1 hx2 hy2 hinf1 hinf2
  by_cases hm : s.operands.mod = 0
  · exact ⟨_, _, exec_of_mod_eq_zero (by simp) hm, exec_of_mod_eq_zero (by simp) (hmod.trans hm), rfl,
      fun h => absurd h (errCode_ne_zero .badModulus)⟩
  have hpoint1 : point1 s'.operands = point2 s.operands := decodePoint_eq hinf1 hx1 hy1
  have hpoint2 : point2 s'.operands = point1 s.operands := decodePoint_eq hinf2 hx2 hy2
  have hcurveA : curveA s'.operands = curveA s.operands := congrArg sint hca
  have hmodulus : modulus s'.operands = modulus s.operands := congrArg uint hmod
  refine exec_agrees_of_outcome_eq ?_
  rw [commandOutcome, commandOutcome, paddOutcome, paddOutcome, hpoint1, hpoint2,
    pointCommand_congr hmod hca (checkedView_congr hctrl hcb), hcurveA, hmodulus,
    pointAdd_comm _ _ _ (Nat.pos_of_ne_zero (modulus_ne_zero hm))]
  exact pointCommand_congr_mem (by simp [or_comm]) s _

/-! ### Prime moduli -/

theorem mod_ne_zero_of_prime {o : Operands} (hp : o.mod.toNat.Prime) : o.mod ≠ 0 :=
  mt modulus_eq_zero_iff.2 hp.ne_zero

theorem point1_reduced_iff {o : Operands} : (point1 o).Reduced o.mod.toNat ↔ P1Reduced o := by
  by_cases h : inf1 o
  · simp [point1_of_inf h, P1Reduced, h, Point.Reduced]
  · simp [point1_of_not_inf h, P1Reduced, h, Point.Reduced]

theorem point2_reduced_iff {o : Operands} : (point2 o).Reduced o.mod.toNat ↔ P2Reduced o := by
  by_cases h : inf2 o
  · simp [point2_of_inf h, P2Reduced, h, Point.Reduced]
  · simp [point2_of_not_inf h, P2Reduced, h, Point.Reduced]

/-- Outside case (2) of R164 two reduced points are not opposite in Mathlib's sense. -/
theorem ne_negY_of_not_opposite {p : Nat} [Fact p.Prime] (h2 : 2 < p) (a b : Int) {x1 y1 x2 y2 : Nat} (hx1 : x1 < p)
    (hy1 : y1 < p) (hx2 : x2 < p) (hc : ¬ (x1 = x2 ∧ (y1 ≠ y2 ∨ y1 = 0))) :
    ¬ ((x1 : ZMod p) = x2 ∧ (y1 : ZMod p) = (curveOver a b p).negY (x2 : ZMod p) (y2 : ZMod p)) := by
  rintro ⟨hx, hy⟩
  have hx : x1 = x2 := natCast_zmod_inj hx1 hx2 hx
  have hy' : y1 = y2 := of_not_not fun h => hc ⟨hx, .inl h⟩
  have hy0 : y1 ≠ 0 := fun h => hc ⟨hx, .inr h⟩
  simp only [curveOver, WeierstrassCurve.Affine.negY, zero_mul, sub_zero, ← hy'] at hy
  exact two_mul_ne_zero_zmod h2 hy1 hy0 (by linear_combination hy)

/-- On a prime field the sum of two reduced points of the curve is one, on a singular curve too (R176). -/
theorem pointAdd_onCurve {p : Nat} (hp : p.Prime) (h2 : 2 < p) {a b : Int} {P Q R : Point} (hP : P.Reduced p)
    (hQ : Q.Reduced p) (hPc : onCurve P a b p = true) (hQc : onCurve Q a b p = true) (hR : pointAdd P Q a p = .ok R) :
    onCurve R a b p = true := by
  obtain _ | ⟨x1, y1⟩ := P
  · cases hR
    exact hQc
  obtain _ | ⟨x2, y2⟩ := Q
  · cases hR
    exact hPc
  by_cases hc : x1 = x2 ∧ (y1 ≠ y2 ∨ y1 = 0)
  · rw [pointAdd_of_opposite hc] at hR
    cases hR
    rfl
  · have : Fact p.Prime := ⟨hp⟩
    obtain ⟨x3, y3, hadd, _, _, hx3, hy3⟩ := pointAdd_zmod h2 a b hP.1 hP.2 hQ.1 hc
    cases hR.symm.trans hadd
    rw [onCurve_zmod a b hp.pos, hx3, hy3]
    exact WeierstrassCurve.Affine.equation_add ((onCurve_zmod a b hp.pos x1 y1).1 hPc) ((onCurve_zmod a b hp.pos x2 y2).1 hQc)
      (ne_negY_of_not_opposite h2 a b hP.1 hP.2 hQ.1 hc)

/-- `MOVR` to P1 hands on the point (30_encoding.md R104, R107), when its coordinates fit the registers. -/
theorem point1_resultToP1 (o : Operands) {R : Point} (hR : R.Reduced (2 ^ 32)) :
    point1 (resultToP1 o (encodePoint R)) = R := by
  cases R with
  | inf => exact point1_of_inf (by simp [inf1, resultToP1, encodePoint])
  | aff x y =>
    rw [point1_of_not_inf (by simp [inf1, resultToP1, encodePoint])]
    simp only [resultToP1, encodePoint, zext, BitVec.toNat_ofNat, Nat.mod_eq_of_lt hR.1, Nat.mod_eq_of_lt hR.2]

theorem Point.Reduced.mono {p q : Nat} (hpq : p ≤ q) {P : Point} (h : P.Reduced p) : P.Reduced q := by
  cases P with
  | inf => trivial
  | aff x y => exact ⟨h.1.trans_le hpq, h.2.trans_le hpq⟩

/-- Settles O39: the sum exists, is reduced and on the curve, and P1 holds it after `MOVR`. -/
theorem paddResultIsOnTheCurve : Obligations.PaddResultIsOnTheCurve := by
  intro s hp h2 hP hQ hPr hQr
  have hm := mod_ne_zero_of_prime hp
  obtain ⟨R, hR, hRr⟩ := pointAdd_reduced hp h2 s.operands.ca.toInt (point1_reduced_iff.2 hPr) (point2_reduced_iff.2 hQr)
  have hRc : onCurve R s.operands.ca.toInt s.operands.cb.toInt s.operands.mod.toNat = true :=
    pointAdd_onCurve hp h2 (point1_reduced_iff.2 hPr) (point2_reduced_iff.2 hQr) ((onCurve_point1_iff hm).2 hP)
      ((onCurve_point2_iff hm).2 hQ) hR
  refine ⟨completeOk (encodePoint R) s, by rw [exec_padd ⟨hm, fun _ => ⟨hP, hQ⟩⟩, hR]; rfl, rfl, ?_⟩
  intro s' hs'
  have hpoint : point1 s'.operands = R := hs' ▸ point1_resultToP1 s.operands (hRr.mono s.operands.mod.isLt.le)
  have hm' : s'.operands.mod ≠ 0 := by rwa [hs']
  constructor
  · rw [← point1_reduced_iff, hpoint, hs']
    exact hRr
  · refine exec_oncurve_of_p1OnCurve hm' ((onCurve_point1_iff hm').1 ?_)
    rw [hpoint, hs']
    exact hRc

/-- A point command whose arithmetic gives a point never ends with NO_INVERSE (R167). -/
theorem commit_pointCommand_ok_err_ne_one (s : State) (points : List Point) (R : Point) :
    (commit (pointCommand s points (.ok R)) s).status.err ≠ 1 := by
  obtain ⟨_, h⟩ | ⟨_, _, h⟩ | ⟨_, _, _, h, _⟩ | ⟨_, _, R', _, h⟩ := pointCommand_cases s points (.ok R)
  · simp [h, errCode]
  · simp [h, errCode]
  · cases h
  · simp [h]

/-- Settles O40: on a prime field the arithmetic of each of the three commands gives a point. -/
theorem primeModulusNeverLacksAnInverse : Obligations.PrimeModulusNeverLacksAnInverse := by
  intro s t i hp h2 hP hi hexec
  have hPr : (point1 s.operands).Reduced (modulus s.operands) := point1_reduced_iff.2 hP
  rw [exec_eq_commit] at hexec
  cases hexec
  obtain ⟨rfl, hQ⟩ | rfl | rfl := hi
  · obtain ⟨R, hR, _⟩ := pointAdd_reduced (p := modulus s.operands) hp h2 (curveA s.operands) hPr (point2_reduced_iff.2 hQ)
    rw [commandOutcome, paddOutcome, hR]
    exact commit_pointCommand_ok_err_ne_one s _ R
  · obtain ⟨R, hR, _⟩ := pointAdd_reduced (p := modulus s.operands) hp h2 (curveA s.operands) hPr hPr
    rw [commandOutcome, pdblOutcome, pointDbl_eq_pointAdd, hR]
    exact commit_pointCommand_ok_err_ne_one s _ R
  · obtain ⟨R, hR, _⟩ := scalarRun_reduced (p := modulus s.operands) hp h2 (curveA s.operands) (uint s.operands.k)
      (scalarStart (uint s.operands.k) (point1 s.operands)) trivial hPr
    rw [commandOutcome, smulOutcome, scalarMul, hR]
    exact commit_pointCommand_ok_err_ne_one s _ R

end Sys2Proof.Machine
end

section
/-! PROOFS. Family 43_ecc_smul.md: the loop that SMUL commits (R190, R192), its corner cases (R193), and additivity in the scalar
(R196). -/

namespace Sys2Proof.Machine

open Sys2Proof.Claims

/-! ### The prologue of SMUL -/

/-- SMUL past its prologue (R192). -/
theorem exec_smul {s : State} (h : OnePointReady s) : exec .smul s = .next (commit ((scalarMul s.operands.k.toNat
    (point1 s.operands) s.operands.ca.toInt s.operands.mod.toNat).map encodePoint) s) := by
  rw [exec_eq_commit, commandOutcome, smulOutcome, pointCommand_eq_map h.1 (pointsAccepted_of_onePointReady h)]
  rfl

/-- The point check comes before the loop, whatever the scalar (R192). -/
theorem exec_smul_of_not_p1OnCurve {s : State} (hm : s.operands.mod ≠ 0) (hon : PchkOn s)
    (hoff : ¬ P1OnCurve s.operands) : exec .smul s = .next (endsErr s 2) := by
  have hrejected : pointsAccepted s [point1 s.operands] = false :=
    pointsAccepted_eq_false hon (List.mem_singleton_self _) (mt (onCurve_point1_iff hm).1 hoff)
  rw [exec_eq_commit, commandOutcome, smulOutcome, pointCommand_rejected (modulus_ne_zero hm) hrejected]
  rfl

/-! ### One iteration of the loop -/

theorem scalarAccumulate_of_bit {r : Scalar} (h : r.k % 2 = 1) (a : Int) (p : Nat) :
    scalarAccumulate r a p = pointAdd r.result r.addend a p := if_pos h

theorem scalarAccumulate_of_not_bit {r : Scalar} (h : ¬ r.k % 2 = 1) (a : Int) (p : Nat) :
    scalarAccumulate r a p = .ok r.result := if_neg h

/-- Past its accumulation an iteration ends as its doubling does (R190, R191). -/
theorem scalarRound_of_accumulate {r : Scalar} {R : Point} {a : Int} {p : Nat} (h : scalarAccumulate r a p = .ok R) :
    scalarRound r a p = (pointAdd r.addend r.addend a p).map fun A => { k := r.k / 2, result := R, addend := A } := by
  rw [scalarRound, h]
  cases pointAdd r.addend r.addend a p <;> rfl

/-- An iteration ends well only when both its accumulation and its doubling do (R190). -/
theorem scalarRound_ok {r r' : Scalar} {a : Int} {p : Nat} (h : scalarRound r a p = .ok r') :
    scalarAccumulate r a p = .ok r'.result ∧ pointAdd r.addend r.addend a p = .ok r'.addend ∧ r'.k = r.k / 2 := by
  unfold scalarRound at h
  split at h
  · cases h
  · split at h <;> cases h
    exact ⟨‹_›, ‹_›, rfl⟩

/-- An iteration fails in its accumulation or, after that, in its doubling (R190). -/
theorem scalarRound_error {r : Scalar} {a : Int} {p : Nat} {e : Err} (h : scalarRound r a p = .error e) :
    scalarAccumulate r a p = .error e ∨
      ∃ R, scalarAccumulate r a p = .ok R ∧ pointAdd r.addend r.addend a p = .error e := by
  unfold scalarRound at h
  split at h
  · cases h
    exact .inl ‹_›
  · split at h <;> cases h
    exact .inr ⟨_, ‹_›, ‹_›⟩

theorem scalarRun_of_round_error {fuel : Nat} {r : Scalar} {a : Int} {p : Nat} {e : Err} (hk : r.k ≠ 0)
    (h : scalarRound r a p = .error e) : scalarRun (fuel + 1) r a p = .error e := by
  simp [scalarRun, hk, h]

/-- An iteration that ends well is a step of the relation. -/
theorem doubleAndAdd_of_round {r r' : Scalar} {a : Int} {p : Nat} {out : Option Point} (hk : r.k ≠ 0)
    (h : scalarRound r a p = .ok r') (hs : DoubleAndAdd a p r'.k r'.result r'.addend out) :
    DoubleAndAdd a p r.k r.result r.addend out := by
  obtain ⟨hacc, hdbl, hhalf⟩ := scalarRound_ok h
  rw [hhalf] at hs
  by_cases hb : r.k % 2 = 1
  · rw [scalarAccumulate_of_bit hb] at hacc
    exact .addBit hb hacc hdbl hs
  · rw [scalarAccumulate_of_not_bit hb, Except.ok.injEq] at hacc
    rw [← hacc] at hs
    exact .skipBit (Nat.pos_of_ne_zero hk) (Nat.mod_two_ne_one.1 hb) hdbl hs

/-- An iteration that fails ends the relation without a point. -/
theorem doubleAndAdd_none_of_round_error {r : Scalar} {a : Int} {p : Nat} {e : Err} (hp : 0 < p) (hk : r.k ≠ 0)
    (h : scalarRound r a p = .error e) : DoubleAndAdd a p r.k r.result r.addend none := by
  obtain hacc | ⟨R, hacc, hdbl⟩ := scalarRound_error h
  · by_cases hb : r.k % 2 = 1
    · rw [scalarAccumulate_of_bit hb] at hacc
      exact .addFails hb (pointAdd_error hp hacc ▸ hacc)
    · rw [scalarAccumulate_of_not_bit hb] at hacc
      cases hacc
  · exact .doubleFails (Nat.pos_of_ne_zero hk) (fun hb => scalarAccumulate_of_bit hb a p ▸ hacc)
      (pointAdd_error hp hdbl ▸ hdbl)

/-! ### The whole loop -/

/-- With fuel for the scalar the run is the loop of R190, to its point or to NoInverse. -/
theorem doubleAndAdd_scalarRun (a : Int) {p : Nat} (hp : 0 < p) : ∀ (fuel : Nat) (r : Scalar), r.k ≤ fuel →
    DoubleAndAdd a p r.k r.result r.addend (scalarRun fuel r a p).toOption := by
  intro fuel
  induction fuel with
  | zero =>
    intro r hfuel
    rw [scalarRun_of_k_eq_zero 0 a p (Nat.le_zero.1 hfuel), Nat.le_zero.1 hfuel]
    exact .finished _ _
  | succ fuel ih =>
    intro r hfuel
    by_cases hk : r.k = 0
    · rw [scalarRun_of_k_eq_zero _ a p hk, hk]
      exact .finished _ _
    · cases hround : scalarRound r a p with
      | error e =>
        rw [scalarRun_of_round_error hk hround]
        exact doubleAndAdd_none_of_round_error hp hk hround
      | ok r' =>
        rw [scalarRun_of_round hk hround]
        exact doubleAndAdd_of_round hk hround (ih r' (by rw [scalarRound_k hround]; omega))

/-- `ScalarMul` ends as its loop does (R190). -/
theorem doubleAndAdd_scalarMul (k : Nat) (P : Point) (a : Int) {p : Nat} (hp : 0 < p) :
    DoubleAndAdd a p k .inf P (scalarMul k P a p).toOption :=
  doubleAndAdd_scalarRun a hp k (scalarStart k P) le_rfl

/-- Whatever `Add` answers is an operand, `Inf` or a third point (R164). -/
theorem pointAdd_ok_cases {P Q R : Point} {a : Int} {p : Nat} (h : pointAdd P Q a p = .ok R) :
    R = P ∨ R = Q ∨ R = .inf ∨ ∃ m x1 y1 x2, R = thirdPoint m x1 y1 x2 p := by
  unfold pointAdd at h
  split at h
  · cases h
    exact .inr (.inl rfl)
  · cases h
    exact .inl rfl
  · split at h
    · cases h
      exact .inr (.inr (.inl rfl))
    · split at h <;> cases h
      exact .inr (.inr (.inr ⟨_, _, _, _, rfl⟩))

/-- `Add` keeps coordinates below any bound that the modulus does not pass. -/
theorem pointAdd_keeps_bound {n p : Nat} (hp : 0 < p) (hpn : p ≤ n) {P Q R : Point} {a : Int} (hP : P.Reduced n)
    (hQ : Q.Reduced n) (h : pointAdd P Q a p = .ok R) : R.Reduced n := by
  obtain rfl | rfl | rfl | ⟨m, x1, y1, x2, rfl⟩ := pointAdd_ok_cases h
  · exact hP
  · exact hQ
  · trivial
  · exact Point.Reduced.mono (P := thirdPoint m x1 y1 x2 p) hpn ⟨modulo_lt _ hp, modulo_lt _ hp⟩

theorem scalarAccumulate_keeps_bound {n p : Nat} (hp : 0 < p) (hpn : p ≤ n) {r : Scalar} {a : Int} {R : Point}
    (hresult : r.result.Reduced n) (haddend : r.addend.Reduced n) (h : scalarAccumulate r a p = .ok R) : R.Reduced n := by
  by_cases hb : r.k % 2 = 1
  · rw [scalarAccumulate_of_bit hb] at h
    exact pointAdd_keeps_bound hp hpn hresult haddend h
  · rw [scalarAccumulate_of_not_bit hb] at h
    cases h
    exact hresult

theorem scalarRun_keeps_bound {n p : Nat} (hp : 0 < p) (hpn : p ≤ n) {a : Int} {R : Point} : ∀ (fuel : Nat) (r : Scalar),
    r.result.Reduced n → r.addend.Reduced n → scalarRun fuel r a p = .ok R → R.Reduced n := by
  intro fuel
  induction fuel with
  | zero =>
    intro r hresult _ h
    cases h
    exact hresult
  | succ fuel ih =>
    intro r hresult haddend h
    by_cases hk : r.k = 0
    · rw [scalarRun_of_k_eq_zero _ a p hk] at h
      cases h
      exact hresult
    · cases hround : scalarRound r a p with
      | error e =>
        rw [scalarRun_of_round_error hk hround] at h
        cases h
      | ok r' =>
        rw [scalarRun_of_round hk hround] at h
        obtain ⟨hacc, hdbl, _⟩ := scalarRound_ok hround
        exact ih r' (scalarAccumulate_keeps_bound hp hpn hresult haddend hacc)
          (pointAdd_keeps_bound hp hpn haddend haddend hdbl) h

/-- The coordinates of P1 fit their registers. -/
theorem point1_fits (o : Operands) : (point1 o).Reduced (2 ^ 32) := by
  by_cases h : inf1 o
  · rw [point1_of_inf h]
    trivial
  · rw [point1_of_not_inf h]
    exact ⟨o.x1.isLt, o.y1.isLt⟩

/-- The coordinates of a multiple of P1 fit the result registers. -/
theorem scalarMul_point1_fits {o : Operands} (hm : o.mod ≠ 0) {k : Nat} {a : Int} {R : Point}
    (h : scalarMul k (point1 o) a o.mod.toNat = .ok R) : R.Reduced (2 ^ 32) :=
  scalarRun_keeps_bound (mod_toNat_pos hm) o.mod.isLt.le k (scalarStart k (point1 o)) trivial (point1_fits o) h

/-- Settles O41: the prologue's errors first, then the run of the loop, which is the relation and fits the registers. -/
theorem smulCommitsTheDoubleAndAddLoop : Obligations.SmulCommitsTheDoubleAndAddLoop := by
  refine ⟨decode_encode_eq .smul, fun s =>
    ⟨exec_of_mod_eq_zero (by simp), exec_smul_of_not_p1OnCurve, fun hready => ?_⟩⟩
  have hp := mod_toNat_pos hready.1
  refine ⟨_, doubleAndAdd_scalarMul s.operands.k.toNat (point1 s.operands) s.operands.ca.toInt hp, ?_⟩
  rw [exec_smul hready]
  cases hmul : scalarMul s.operands.k.toNat (point1 s.operands) s.operands.ca.toInt s.operands.mod.toNat with
  | error e =>
    obtain rfl := scalarRun_error hp _ _ hmul
    exact ⟨fun _ => rfl, nofun, nofun⟩
  | ok R =>
    refine ⟨nofun, fun hinf => ?_, fun x y haff => ?_⟩
    · cases hinf
      rfl
    · cases haff
      obtain ⟨hx, hy⟩ := scalarMul_point1_fits hready.1 hmul
      exact ⟨hx, hy, rfl⟩

/-! ### Scalar 0, scalar 1 and `Inf` -/

/-- The loop from `Inf` with the addend `Inf` stays there (R193). -/
theorem scalarRun_inf (a : Int) (p : Nat) : ∀ fuel k : Nat, scalarRun fuel (scalarStart k .inf) a p = .ok .inf := by
  intro fuel
  induction fuel with
  | zero => exact fun k => rfl
  | succ fuel ih =>
    intro k
    by_cases hk : k = 0
    · exact scalarRun_of_k_eq_zero _ a p hk
    · have hround : scalarRound (scalarStart k .inf) a p = .ok (scalarStart (k / 2) .inf) :=
        scalarRound_of_accumulate (ite_self _)
      rw [scalarRun_of_round hk hround, ih]

/-- With scalar 1 the accumulation takes the point, and the doubling is only tried (R191, R193). -/
theorem scalarMul_one (P : Point) (a : Int) (p : Nat) : scalarMul 1 P a p = (pointAdd P P a p).map fun _ => P := by
  have hround : scalarRound (scalarStart 1 P) a p =
      (pointAdd P P a p).map fun A => { k := 1 / 2, result := P, addend := A } :=
    scalarRound_of_accumulate (r := scalarStart 1 P) rfl
  cases hdbl : pointAdd P P a p with
  | error e =>
    rw [hdbl] at hround
    exact scalarRun_of_round_error Nat.one_ne_zero hround
  | ok A =>
    rw [hdbl] at hround
    exact scalarRun_of_round Nat.one_ne_zero hround

/-- A point has a double when its `y` is 0 or `2 * y` has an inverse (R164, R174). -/
theorem pointAdd_self_ok {x y p : Nat} (a : Int) (hp : 0 < p) (h : y = 0 ∨ Int.gcd (2 * (y : Int)) p = 1) :
    ∃ A, pointAdd (.aff x y) (.aff x y) a p = .ok A := by
  by_cases hy : y = 0
  · exact ⟨_, pointAdd_of_opposite ⟨rfl, .inr hy⟩ a p⟩
  · obtain ⟨i, _, hi⟩ := modInv_ok _ hp (h.resolve_left hy)
    rw [pointAdd_self hy, tangentSlope_of_isInverse a hp hi]
    exact ⟨_, rfl⟩

/-- Settles O42: the loop does not run for K = 0, stays at `Inf` from `Inf`, and for K = 1 its one iteration doubles P1. -/
theorem smulOfZeroOneAndInfinity : Obligations.SmulOfZeroOneAndInfinity := by
  intro s hready
  have hp := mod_toNat_pos hready.1
  rw [exec_smul hready]
  refine ⟨fun hk => ?zero, fun hinf => ?inf, fun hk hinf hdouble => ?one, fun hk hinf hy hgcd => ?noInverse⟩
  case zero =>
    rw [hk]
    rfl
  case inf =>
    rw [point1_of_inf hinf, scalarMul, scalarRun_inf]
    rfl
  case one =>
    obtain ⟨A, hA⟩ := pointAdd_self_ok (x := s.operands.x1.toNat) s.operands.ca.toInt hp
      (hdouble.imp_left (congrArg BitVec.toNat))
    rw [show s.operands.k.toNat = 1 from congrArg BitVec.toNat hk, point1_of_not_inf hinf, scalarMul_one, hA]
    exact congrArg _ (commit_encodePoint_toNat _ _ s)
  case noInverse =>
    rw [show s.operands.k.toNat = 1 from congrArg BitVec.toNat hk, point1_of_not_inf hinf, scalarMul_one,
      pointAdd_self (BitVec.toNat_ne_iff_ne.2 hy), tangentSlope_of_gcd_ne_one _ hp hgcd]
    rfl

/-! ### Multiples of a point of the curve -/

/-- A point that stands for one of Mathlib's curve passes the curve check. -/
theorem Represents.onCurve {a b : Int} {p : Nat} (hp : 0 < p) {P : Point} {Q : (curveOver a b p).Point}
    (h : Represents a b p P Q) : onCurve P a b p = true := by
  obtain _ | ⟨x, y⟩ := P
  · rfl
  obtain _ | ⟨X, Y, hns⟩ := Q
  · exact h.elim
  obtain ⟨_, _, rfl, rfl⟩ := h
  exact (onCurve_zmod a b hp x y).2 hns.1

/-- P1 of a valid curve stands for a point of Mathlib's curve (42_ecc_point.md R176). -/
theorem exists_represents_point1 {o : Operands} (hcurve : PrimeCurve o) (hP : P1OnCurve o) (hPr : P1Reduced o) :
    ∃ Q, Represents o.ca.toInt o.cb.toInt o.mod.toNat (point1 o) Q := by
  obtain ⟨hp, h2, hd⟩ := hcurve
  exact exists_represents hp h2 hd (point1_reduced_iff.2 hPr) ((onCurve_point1_iff (mod_ne_zero_of_prime hp)).2 hP)

section

variable {s : State} {a b : Int} {p : Nat} [Fact p.Prime] (h2 : 2 < p) (ha : s.operands.ca.toInt = a)
  (hb : s.operands.cb.toInt = b) (hmod : s.operands.mod.toNat = p)

include h2 ha hb hmod

/-- SMUL of a point of a valid curve ends without error, with the multiple by K (R196). -/
theorem exec_smul_represents {Q : (curveOver a b p).Point} (hQ : Represents a b p (point1 s.operands) Q) :
    ∃ R, exec .smul s = .next (completeOk (encodePoint R) s) ∧ Represents a b p R (s.operands.k.toNat • Q) := by
  subst ha hb hmod
  have hm : s.operands.mod ≠ 0 := mod_ne_zero_of_prime Fact.out
  have hready : OnePointReady s := ⟨hm, fun _ => (onCurve_point1_iff hm).1 (hQ.onCurve (mod_toNat_pos hm))⟩
  obtain ⟨R, hR, hrep⟩ := scalarMul_represents h2 s.operands.k.toNat hQ
  exact ⟨R, by rw [exec_smul hready, hR]; rfl, hrep⟩

/-- PADD of two points of a valid curve ends without error, with their sum (42_ecc_point.md R176). -/
theorem exec_padd_represents {Q Q' : (curveOver a b p).Point} (hQ : Represents a b p (point1 s.operands) Q)
    (hQ' : Represents a b p (point2 s.operands) Q') :
    ∃ R, exec .padd s = .next (completeOk (encodePoint R) s) ∧ Represents a b p R (Q + Q') := by
  subst ha hb hmod
  have hm : s.operands.mod ≠ 0 := mod_ne_zero_of_prime Fact.out
  have hready : PaddReady s := ⟨hm, fun _ => ⟨(onCurve_point1_iff hm).1 (hQ.onCurve (mod_toNat_pos hm)),
    (onCurve_point2_iff hm).1 (hQ'.onCurve (mod_toNat_pos hm))⟩⟩
  obtain ⟨R, hR, hrep⟩ := pointAdd_represents h2 hQ hQ'
  exact ⟨R, by rw [exec_padd hready, hR]; rfl, hrep⟩

end

/-- `MOVR` to P2 hands on the point (30_encoding.md R104, R107), when its coordinates fit the registers. -/
theorem point2_resultToP2 (o : Operands) {R : Point} (hR : R.Reduced (2 ^ 32)) :
    point2 (resultToP2 o (encodePoint R)) = R := by
  cases R with
  | inf => exact point2_of_inf (by simp [inf2, resultToP2, encodePoint])
  | aff x y =>
    rw [point2_of_not_inf (by simp [inf2, resultToP2, encodePoint])]
    simp only [resultToP2, encodePoint, zext, BitVec.toNat_ofNat, Nat.mod_eq_of_lt hR.1, Nat.mod_eq_of_lt hR.2]

/-- `MOVR` to P2 leaves P1 as it is (30_encoding.md R107). -/
@[simp] theorem point1_resultToP2 (o : Operands) (r : Results) : point1 (resultToP2 o r) = point1 o := by
  have hflag : p1Inf (resultToP2 o r) = p1Inf o := by simp [p1Inf, resultToP2]
  simp only [point1, hflag]
  rfl

/-- Settles O44: the three multiples are those of Mathlib's group of points, where the law holds. -/
theorem smulIsAdditiveInTheScalar : Obligations.SmulIsAdditiveInTheScalar := by
  intro s j k hcurve hP hPr hsum
  obtain ⟨Q, hQ⟩ := exists_represents_point1 hcurve hP hPr
  obtain ⟨hp, h2, _⟩ := hcurve
  have : Fact s.operands.mod.toNat.Prime := ⟨hp⟩
  obtain ⟨Rj, hj, hRj⟩ := exec_smul_represents (s := { s with operands := { s.operands with k := j } }) h2 rfl rfl rfl hQ
  obtain ⟨Rk, hk, hRk⟩ := exec_smul_represents (s := { s with operands := { s.operands with k := k } }) h2 rfl rfl rfl hQ
  obtain ⟨Rjk, hjk, hRjk⟩ := exec_smul_represents (s := { s with operands := { s.operands with k := j + k } }) h2 rfl rfl rfl hQ
  have hmod := s.operands.mod.isLt.le
  have hpoint1 := point1_resultToP1 s.operands (hRj.reduced.mono hmod)
  have hpoint2 := point2_resultToP2 (resultToP1 s.operands (encodePoint Rj)) (hRk.reduced.mono hmod)
  obtain ⟨R, hu, hR⟩ := exec_padd_represents
    (s := { s with operands := resultToP2 (resultToP1 s.operands (encodePoint Rj)) (encodePoint Rk) }) h2 rfl rfl rfl
    (by rw [point1_resultToP2, hpoint1]; exact hRj) (by rw [hpoint2]; exact hRk)
  have hgroup : (j + k).toNat • Q = j.toNat • Q + k.toNat • Q := by
    rw [BitVec.toNat_add_of_lt hsum, add_nsmul]
  have hsame : R = Rjk := hR.unique (hgroup ▸ hRjk)
  exact ⟨_, _, _, _, hj, rfl, hk, rfl, hjk, rfl, hu, rfl, congrArg encodePoint hsame⟩

end Sys2Proof.Machine
end

section
/-! PROOFS. Family 44_host_sequences.md: the key exchange (R211, R212), one use of a command by the host (R210), and the text
transform (R214). -/

namespace Sys2Proof.Machine

open Sys2Proof.Claims

/-! ### Key exchange -/

/-- SMUL of a point handed on by `MOVR` (R211), on a valid curve, gives the multiple of that point. -/
theorem exec_smul_resultToP1_represents {s : State} [Fact s.operands.mod.toNat.Prime] (h2 : 2 < s.operands.mod.toNat) (k : Word)
    {R : Point} {Q : (curveOver s.operands.ca.toInt s.operands.cb.toInt s.operands.mod.toNat).Point}
    (hR : Represents s.operands.ca.toInt s.operands.cb.toInt s.operands.mod.toNat R Q) :
    ∃ S t, exec .smul { s with operands := { resultToP1 s.operands (encodePoint R) with k := k } } = .next t ∧
      t.status.err = 0 ∧ t.results = encodePoint S ∧
      Represents s.operands.ca.toInt s.operands.cb.toInt s.operands.mod.toNat S (k.toNat • Q) := by
  have hpoint1 : point1 { resultToP1 s.operands (encodePoint R) with k := k } = R :=
    point1_resultToP1 s.operands (hR.reduced.mono s.operands.mod.isLt.le)
  obtain ⟨S, hexec, hS⟩ := exec_smul_represents
    (s := { s with operands := { resultToP1 s.operands (encodePoint R) with k := k } }) h2 rfl rfl rfl (hpoint1.symm ▸ hR)
  exact ⟨S, _, hexec, rfl, rfl, hS⟩

/-- Settles O45: both secrets stand for the multiple by `d * e` of the base point in Mathlib's group. -/
theorem keyExchangeSecretsAgree : Obligations.KeyExchangeSecretsAgree := by
  intro s d e hcurve hP hPr
  obtain ⟨Q, hQ⟩ := exists_represents_point1 hcurve hP hPr
  obtain ⟨hp, h2, _⟩ := hcurve
  have : Fact s.operands.mod.toNat.Prime := ⟨hp⟩
  obtain ⟨Rd, hd, hRd⟩ := exec_smul_represents (s := { s with operands := { s.operands with k := d } }) h2 rfl rfl rfl hQ
  obtain ⟨Re, he, hRe⟩ := exec_smul_represents (s := { s with operands := { s.operands with k := e } }) h2 rfl rfl rfl hQ
  obtain ⟨Sd, sd, hsd, hsdErr, hsdResults, hSd⟩ := exec_smul_resultToP1_represents h2 d hRe
  obtain ⟨Se, se, hse, hseErr, hseResults, hSe⟩ := exec_smul_resultToP1_represents h2 e hRd
  have hgroup : d.toNat • e.toNat • Q = e.toNat • d.toNat • Q := smul_comm _ _ _
  have hsame : Sd = Se := hSd.unique (hgroup ▸ hSe)
  exact ⟨_, _, sd, se, hd, rfl, he, rfl, hsd, hsdErr, hse, hseErr, by rw [hsdResults, hseResults, hsame]⟩

/-! ### One use of a command -/

/-- A `WAIT` reads on while the command runs, and moves nothing but the value last read (30_encoding.md R106). -/
theorem hostRun_wait_running {h : HostRun} {rest : List HostAct} (htodo : h.todo = .wait :: rest)
    (hdone : h.block.status.done = false) (n : Nat) : ∃ v made,
      hostRun (List.replicate n false) h = .next { h with block := { h.block with rdata := v }, made := made } := by
  induction n generalizing h with
  | zero => exact ⟨h.block.rdata, h.made, rfl⟩
  | succ n ih =>
    have hread := hostAct_wait htodo
    rw [hdone, if_neg Bool.false_ne_true, ← htodo] at hread
    obtain ⟨v, made, hrest⟩ := ih (h := { h with
      block := { h.block with rdata := statusWord h.block.status }
      made := .read (regOffset .status) (statusWord h.block.status) :: h.made }) htodo hdone
    exact ⟨v, made, by rw [List.replicate_succ, hostRun, hostStep_false, hread]; exact hrest⟩

/-- The read that a completion comes before ends a `WAIT`, and what it returned is the STATUS of the completed command. -/
theorem hostStep_completion_wait {h : HostRun} {rest : List HostAct} {i : Instr} {u : State} (htodo : h.todo = .wait :: rest)
    (hbusy : h.block.status.busy = true) (hlatch : h.block.oplatch = encode i) (hexec : exec i h.block = .next u) :
    hostStep true h = .next { h with block := { u with rdata := statusWord u.status }, todo := rest,
                                     made := .read (regOffset .status) (statusWord u.status) :: h.made } := by
  have hdone : u.status.done = true := by
    rw [exec_eq_commit] at hexec
    cases hexec
    exact commit_status_done _ _
  have hcompletion : applyEvent .completion h.block = .next u := by
    simp [applyEvent, hbusy, completion, hlatch, hexec]
  rw [hostStep, if_pos rfl, hcompletion]
  simpa [hdone] using hostAct_wait (h := { h with block := u }) htodo

/-- The host has stored the character `c` in an idle block `s` and issued the command `i`; the `WAIT` is left (R210). -/
def issuedRun (i : Instr) (c : Byte) (s : State) : HostRun where
  block := issue (encode i) (storeReg .chr (c.setWidth 32) s)
  todo := [.wait]
  pinf := 0
  made := [.write (regOffset .cmd) (encode i), .write (regOffset .chr) (c.setWidth 32)]

/-- The first two accesses of a use, when no completion falls before them. -/
theorem hostRun_chr_cmd (i : Instr) (c : Byte) {s : State} (hidle : s.status.busy = false) :
    hostRun [false, false] (hostStart [.wr .chr (c.setWidth 32), .run i] 0 s) = .next (issuedRun i c s) := by
  have hchr : windowWrite (regOffset .chr) (c.setWidth 32) s = storeReg .chr (c.setWidth 32) s :=
    windowWrite_writable_idle (by decide) _ hidle
  have hcmd := windowWrite_cmd_idle (encode i) (s := storeReg .chr (c.setWidth 32) s) (by rwa [storeReg_status])
  rw [hostRun, hostStep_false, hostAct_wr rfl]
  simp only [hostValue, hostStart, hchr]
  rw [hostRun, hostStep_false, hostAct_wr rfl]
  simp only [hostValue, hcmd]
  rfl

/-- One use of a command on one character, from an idle block (R210): it ends after any number of reads in its `WAIT`, the command
runs on a state `t` with the character in CHR, and the last read returned its STATUS. -/
theorem runLines_use (i : Instr) (polls : Nat) (c : Byte) {s : State} (hidle : s.status.busy = false) : ∃ t : State,
    t.operands = { s.operands with chr := c } ∧
    ∀ u, exec i t = .next u → ∃ h,
      runLines (useSchedule polls) [.wr .chr (c.setWidth 32), .run i] 0 s = .next h ∧
      readBackValue h 0 = statusWord u.status ∧ h.block = { u with rdata := statusWord u.status } := by
  obtain ⟨v, made, hwait⟩ := hostRun_wait_running (h := issuedRun i c s) rfl rfl polls
  refine ⟨{ (issuedRun i c s).block with rdata := v }, by simp [issuedRun, storeReg], fun u hexec => ⟨
    { block := { u with rdata := statusWord u.status }, todo := [], pinf := 0
      made := .read (regOffset .status) (statusWord u.status) :: made }, ?_, rfl, rfl⟩⟩
  rw [runLines, show useSchedule polls = [false, false] ++ (List.replicate polls false ++ [true]) from rfl,
    hostRun_append _ _ _ _ (hostRun_chr_cmd i c hidle), hostRun_append _ _ _ _ hwait, hostRun,
    hostStep_completion_wait rfl rfl rfl hexec]
  rfl

/-! ### The text transform -/

/-- With `a` in AFA and `b` in AFB the command ends without error and with `f` of the character in RES0. -/
def MapsCharacters (i : Instr) (a b : Word) (f : Byte → Word) : Prop :=
  ∀ t : State, t.operands.afa = a → t.operands.afb = b → exec i t = .next (endsOk t (f t.operands.chr) 0 0)

section

variable {i : Instr} {a b : Word} {f : Byte → Word} (hmaps : MapsCharacters i a b f) (polls : Nat → Nat)

include hmaps

/-- The loop maps the text character by character and leaves the block idle (R214). -/
theorem transformLoop_of_mapsCharacters (text : List Byte) (out : List Word) {s : State} (hidle : s.status.busy = false)
    (hafa : s.operands.afa = a) (hafb : s.operands.afb = b) :
    ∃ u, transformLoop i polls text out s = .next (out ++ text.map f, 0, u) ∧ u.status.busy = false := by
  induction text generalizing out s with
  | nil => exact ⟨s, by rw [transformLoop, List.map_nil, List.append_nil], hidle⟩
  | cons c cs ih =>
    obtain ⟨t, hoperands, huse⟩ := runLines_use i (polls out.length) c hidle
    have hexec : exec i t = .next (endsOk t (f c) 0 0) := by
      have := hmaps t (by rw [hoperands]; exact hafa) (by rw [hoperands]; exact hafb)
      rwa [hoperands] at this
    obtain ⟨h, hrun, hread, hblock⟩ := huse _ hexec
    have herr : statusErr (readBackValue h 0) = 0 := by rw [hread, statusErr_statusWord]; rfl
    have hres0 : readReg h.block .res0 = f c := by rw [hblock]; rfl
    obtain ⟨u, hrest, hu⟩ := ih (out ++ [f c]) (s := { h.block with rdata := f c }) (by rw [hblock]; rfl)
      (by rw [hblock]; exact (congrArg Operands.afa hoperands).trans hafa)
      (by rw [hblock]; exact (congrArg Operands.afb hoperands).trans hafb)
    refine ⟨u, ?_, hu⟩
    rw [transformLoop, hrun]
    simp only [herr, ne_eq, not_true_eq_false, if_false, rdEvent_next, hres0, hrest, List.map_cons, List.append_assoc,
      List.singleton_append]

/-- `Transform` maps the text character by character and leaves the block idle (R214). -/
theorem transform_of_mapsCharacters (text : List Byte) {s : State} (hidle : s.status.busy = false) :
    ∃ u, transform i a b text polls s = .next (text.map f, 0, u) ∧ u.status.busy = false := by
  have hafa : windowWrite (regOffset .afa) a s = storeReg .afa a s := windowWrite_writable_idle (by decide) _ hidle
  have hafb : windowWrite (regOffset .afb) b (storeReg .afa a s) = storeReg .afb b (storeReg .afa a s) :=
    windowWrite_writable_idle (by decide) _ (by rwa [storeReg_status])
  obtain ⟨u, hloop, hu⟩ := transformLoop_of_mapsCharacters hmaps polls text [] (s := storeReg .afb b (storeReg .afa a s))
    (by rwa [storeReg_status, storeReg_status]) rfl rfl
  refine ⟨u, ?_, hu⟩
  rw [transform]
  simp only [applyEvents, wrEvent_next, hafa, hafb]
  exact hloop

end

theorem affenc_mapsCharacters (a b : Word) :
    MapsCharacters .affenc a b fun c => BitVec.ofNat 32 (mapLetter (affEncIdx a.toInt b.toInt) c.toNat) := by
  rintro t rfl rfl
  exact exec_affenc t

theorem affdec_mapsCharacters {a : Word} {i : Nat} (h : IsInverse a.toInt 26 i) (b : Word) :
    MapsCharacters .affdec a b fun c => BitVec.ofNat 32 (mapLetter (affDecIdx i b.toInt) c.toNat) := by
  rintro t rfl rfl
  exact exec_affdec_of_isInverse h

/-- Settles O30: both transforms map character by character, and per character the second undoes the first up to case. -/
theorem textRoundTripGivesUpperCase : Obligations.TextRoundTripGivesUpperCase := by
  intro s a b text polls polls' hidle hgcd
  obtain ⟨i, hi⟩ := exists_isInverse_of_gcd_eq_one hgcd
  obtain ⟨t, henc, ht⟩ := transform_of_mapsCharacters (affenc_mapsCharacters a b) polls text hidle
  obtain ⟨u, hdec, _⟩ := transform_of_mapsCharacters (affdec_mapsCharacters hi b) polls'
    ((text.map fun c => BitVec.ofNat 32 (mapLetter (affEncIdx a.toInt b.toInt) c.toNat)).map fun w => w.setWidth 8) ht
  refine ⟨_, _, t, u, henc, List.length_map _, hdec, ?_⟩
  rw [List.map_map, List.map_map]
  refine List.map_congr_left fun c _ => congrArg (BitVec.ofNat 32) ?_
  dsimp only [Function.comp_apply]
  rw [affenc_result_toNat, mapLetter_mapLetter (affEncIdx_lt _ _) fun _ => affDecIdx_affEncIdx hi _]

end Sys2Proof.Machine
end

section
/-! PROOFS. Family 60_exceptions.md: the errors a command can end with and when (R221 to R225), what an error leaves unchanged
(R228), and that no well-formed request stops the block (R236). -/

namespace Sys2Proof.Machine

open Sys2Proof.Claims

/-! ### The code a completion leaves -/

theorem errCode_injective {e e' : Err} (h : errCode e = errCode e') : e = e' := by
  revert h
  cases e <;> cases e' <;> decide

/-- ERR tells the outcome: an error's code is left by that error and by nothing else (30_encoding.md R96, R100). -/
theorem commit_err_eq_errCode_iff {o : Except Err Results} {s : State} {e : Err} :
    (commit o s).status.err = errCode e ↔ o = .error e := by
  cases o with
  | ok r => simpa using (errCode_ne_zero e).symm
  | error e' => exact ⟨fun h => congrArg Except.error (errCode_injective h), fun h => by cases h; rfl⟩

/-- A commit that leaves a code is that of an error, and writes STATUS alone (R228). -/
theorem commit_of_err_ne_zero {o : Except Err Results} {s : State} (h : (commit o s).status.err ≠ 0) :
    ∃ e, o = .error e ∧ commit o s = endsErr s (errCode e) := by
  cases o with
  | ok r => exact absurd rfl h
  | error e => exact ⟨e, rfl, rfl⟩

/-- A step at which the completion comes next commits `Execute(OPLATCH)`, its event used up (30_encoding.md R96). -/
theorem step_completionNext_eq_commit {s : State} {rest : List Event} (h : CompletionNext s rest) :
    step s = .next (commit (latchOutcome { s with events := rest }) { s with events := rest }) := by
  rw [step_of_completionNext h, completion_eq_commit]

/-- Settles O21: a completion commits an outcome, and `commit` of an error writes STATUS alone. -/
theorem failedCommandChangesOnlyStatus : Obligations.FailedCommandChangesOnlyStatus := by
  constructor
  · intro i s
    rw [exec_eq_commit]
    cases commandOutcome i s with
    | ok r => exact .inl ⟨r.res0, r.res1, r.rinf, rfl⟩
    | error e => exact .inr ⟨errCode e, errCode_ne_zero e, rfl⟩
  · intro s t rest hnext hstep herr
    rw [step_completionNext_eq_commit hnext] at hstep
    cases hstep
    obtain ⟨e, _, hcommit⟩ := commit_of_err_ne_zero herr
    rw [hcommit]
    rfl

/-! ### Which error, and when -/

/-- The operand points that `CheckPoints` looks at (42_ecc_point.md R166; R223). -/
def checkedPoints : Instr → Operands → List Point
  | .padd, o => [point1 o, point2 o]
  | .pdbl, o | .smul, o => [point1 o]
  | .modinv, _ | .oncurve, _ | .affenc, _ | .affdec, _ => []

/-- The modulus test has one error (R224). -/
theorem checkedModulus_error {o : Operands} {e : Err} (h : checkedModulus o = .error e) : e = .badModulus ∧ o.mod = 0 := by
  unfold checkedModulus at h
  split at h <;> cases h
  exact ⟨rfl, modulus_eq_zero_iff.1 ‹_›⟩

theorem checkedModulus_ok_pos {o : Operands} {m : Nat} (h : checkedModulus o = .ok m) : 0 < m := by
  unfold checkedModulus at h
  split at h <;> cases h
  exact Nat.pos_of_ne_zero ‹_›

/-- The point check rejects exactly with CTRL.PCHK on and a listed point off the curve (42_ecc_point.md R166). -/
theorem pointsAccepted_eq_false_iff {s : State} {points : List Point} : pointsAccepted s points = false ↔
    PchkOn s ∧ ∃ P ∈ points, ¬ onCurve P (curveA s.operands) (curveB s.operands) (modulus s.operands) = true := by
  rw [← Bool.not_eq_true, pointsAccepted_iff]
  push Not
  rfl

/-- Which commands check a point, and which point (R223). -/
theorem checkedPoints_rejected_iff {i : Instr} {s : State} (hm : s.operands.mod ≠ 0) :
    pointsAccepted s (checkedPoints i s.operands) = false ↔ PchkOn s ∧
      ((i = .padd ∧ (¬ P1OnCurve s.operands ∨ ¬ P2OnCurve s.operands)) ∨
        ((i = .pdbl ∨ i = .smul) ∧ ¬ P1OnCurve s.operands)) := by
  rw [pointsAccepted_eq_false_iff]
  cases i <;> simp [checkedPoints, -Bool.not_eq_true, onCurve_point1_iff hm, onCurve_point2_iff hm]

/-- The errors of a point command whose arithmetic lacks nothing but an inverse (42_ecc_point.md R167). -/
theorem pointCommand_error {s : State} {points : List Point} {arithmetic : Except Err Point} {e : Err}
    (harith : ∀ e', 0 < modulus s.operands → arithmetic = .error e' → e' = .noInverse)
    (h : pointCommand s points arithmetic = .error e) :
    (e = .badModulus ∧ s.operands.mod = 0) ∨
    (e = .invalidPoint ∧ s.operands.mod ≠ 0 ∧ pointsAccepted s points = false) ∨
    e = .noInverse := by
  obtain ⟨hm, hout⟩ | ⟨hm, hrejected, hout⟩ | ⟨hm, _, e', he', hout⟩ | ⟨_, _, R, _, hout⟩ :=
    pointCommand_cases s points arithmetic
  all_goals
    rw [hout] at h
    cases h
  · exact .inl ⟨rfl, modulus_eq_zero_iff.1 hm⟩
  · exact .inr (.inl ⟨rfl, mt modulus_eq_zero_iff.2 hm, hrejected⟩)
  · exact .inr (.inr (harith e (Nat.pos_of_ne_zero hm) he'))

/-- The errors of MODINV (40_modinv.md R122). -/
theorem modinvOutcome_error {s : State} {e : Err} (h : modinvOutcome s = .error e) :
    (e = .badModulus ∧ s.operands.mod = 0) ∨ e = .noInverse := by
  unfold modinvOutcome at h
  split at h
  · cases h
    exact .inl (checkedModulus_error ‹_›)
  · split at h <;> cases h
    exact .inr ((modInv_eq_error_iff (checkedModulus_ok_pos ‹_›)).1 ‹_›).1

theorem oncurveOutcome_error {s : State} {e : Err} (h : oncurveOutcome s = .error e) :
    e = .badModulus ∧ s.operands.mod = 0 := by
  unfold oncurveOutcome at h
  split at h <;> cases h
  exact checkedModulus_error ‹_›

theorem affencOutcome_ne_error (s : State) (e : Err) : affencOutcome s ≠ .error e := by
  intro h
  simp only [affencOutcome] at h
  split at h <;> cases h

theorem affdecOutcome_error {s : State} {e : Err} (h : affdecOutcome s = .error e) : e = .noInverse := by
  simp only [affdecOutcome] at h
  split at h
  · cases h
    exact ((modInv_eq_error_iff (m := Config.affineModulus) (by decide)).1 ‹_›).1
  · split at h <;> cases h

/-- What each error says about the command and its operands (R221 to R224). -/
theorem commandOutcome_error_cases {i : Instr} {s : State} {e : Err} (h : commandOutcome i s = .error e) :
    (e = .badModulus ∧ i ∈ [Instr.modinv, .oncurve, .padd, .pdbl, .smul] ∧ s.operands.mod = 0) ∨
    (e = .invalidPoint ∧ s.operands.mod ≠ 0 ∧ pointsAccepted s (checkedPoints i s.operands) = false) ∨
    (e = .noInverse ∧ i ≠ .oncurve ∧ i ≠ .affenc) := by
  cases i with
  | modinv =>
    obtain ⟨he, hm⟩ | he := modinvOutcome_error h
    · exact .inl ⟨he, by decide, hm⟩
    · exact .inr (.inr ⟨he, by decide, by decide⟩)
  | oncurve =>
    obtain ⟨he, hm⟩ := oncurveOutcome_error h
    exact .inl ⟨he, by decide, hm⟩
  | affenc => exact absurd h (affencOutcome_ne_error s e)
  | affdec => exact .inr (.inr ⟨affdecOutcome_error h, by decide, by decide⟩)
  | padd => simpa [checkedPoints] using pointCommand_error (fun _ hp => pointAdd_error hp) h
  | pdbl => simpa [checkedPoints] using pointCommand_error (fun _ hp => pointDbl_error hp) h
  | smul => simpa [checkedPoints] using pointCommand_error (fun _ hp => scalarRun_error hp _ _) h

/-- A rejected point is the error of any command that checks one (42_ecc_point.md R167). -/
theorem commandOutcome_of_rejected {i : Instr} {s : State} (hm : s.operands.mod ≠ 0)
    (h : pointsAccepted s (checkedPoints i s.operands) = false) : commandOutcome i s = .error .invalidPoint := by
  cases i with
  | padd | pdbl | smul => exact pointCommand_rejected (modulus_ne_zero hm) h _
  | modinv | oncurve | affenc | affdec => simp [checkedPoints, pointsAccepted] at h

theorem commandOutcome_eq_invalidPoint_iff {i : Instr} {s : State} : commandOutcome i s = .error .invalidPoint ↔
    s.operands.mod ≠ 0 ∧ pointsAccepted s (checkedPoints i s.operands) = false := by
  refine ⟨fun h => ?_, fun ⟨hm, hrejected⟩ => commandOutcome_of_rejected hm hrejected⟩
  obtain ⟨he, _⟩ | ⟨_, hrejected⟩ | ⟨he, _⟩ := commandOutcome_error_cases h
  · cases he
  · exact hrejected
  · cases he

/-- No command raises ILLEGAL_CMD: the completion does, for a word that is no command (R225). -/
theorem latchOutcome_eq_illegalCmd_iff {s : State} :
    latchOutcome s = .error .illegalCmd ↔ s.oplatch.toNat = 0 ∨ 8 ≤ s.oplatch.toNat := by
  rw [← decode_eq_illegalCmd_iff, latchOutcome]
  cases hdecode : decode s.oplatch with
  | ok i =>
    refine ⟨fun h => ?_, fun h => by cases h⟩
    obtain ⟨he, _⟩ | ⟨he, _⟩ | ⟨he, _⟩ := commandOutcome_error_cases h <;> cases he
  | error e => simp [eq_illegalCmd_of_decode_eq_error hdecode]

/-- Settles O19: the completion commits IllegalCmd exactly when OPLATCH does not decode. -/
theorem illegalWordEndsWithIllegalCmd : Obligations.IllegalWordEndsWithIllegalCmd := by
  constructor
  · intro s rest hnext hword
    have hillegal : latchOutcome { s with events := rest } = .error .illegalCmd := latchOutcome_eq_illegalCmd_iff.2 hword
    rw [step_completionNext_eq_commit hnext, hillegal]
    rfl
  · intro s t rest hnext hstep
    rw [step_completionNext_eq_commit hnext] at hstep
    cases hstep
    exact commit_err_eq_errCode_iff.trans (latchOutcome_eq_illegalCmd_iff (s := { s with events := rest }))

/-- Settles O46: the modulus test comes first, and no other test has its code. -/
theorem badModulusIsTestedFirst : Obligations.BadModulusIsTestedFirst := by
  refine ⟨fun i s hi hm => exec_of_mod_eq_zero hi hm, fun i s t hexec herr => ?_⟩
  rw [exec_eq_commit] at hexec
  cases hexec
  have hbad : commandOutcome i s = .error .badModulus := commit_err_eq_errCode_iff.1 herr
  obtain ⟨_, hbadModulus⟩ | ⟨he, _⟩ | ⟨he, _⟩ := commandOutcome_error_cases hbad
  · exact hbadModulus
  · cases he
  · cases he

/-- Settles O47: past the modulus test the point check is the next thing a point command does, and the only source of its code. -/
theorem invalidPointNeedsThePointCheck : Obligations.InvalidPointNeedsThePointCheck := by
  intro i s t hexec
  rw [exec_eq_commit] at hexec
  cases hexec
  calc (commit (commandOutcome i s) s).status.err = errCode .invalidPoint
    _ ↔ commandOutcome i s = .error .invalidPoint := commit_err_eq_errCode_iff
    _ ↔ s.operands.mod ≠ 0 ∧ pointsAccepted s (checkedPoints i s.operands) = false := commandOutcome_eq_invalidPoint_iff
    _ ↔ _ := and_congr_right checkedPoints_rejected_iff

/-- Settles O48: each of the three errors excludes the commands whose column does not have it. -/
theorem eachCommandEndsOnlyWithItsErrors : Obligations.EachCommandEndsOnlyWithItsErrors := by
  intro i s t hexec herr
  rw [exec_eq_commit] at hexec
  cases hexec
  obtain ⟨e, hout, -⟩ := commit_of_err_ne_zero herr
  rw [hout]
  obtain ⟨rfl, hi, -⟩ | ⟨rfl, hm, hrejected⟩ | ⟨rfl, honcurve, haffenc⟩ := commandOutcome_error_cases hout
  · cases i <;> simp [errCode] at hi ⊢
  · obtain ⟨hon, ⟨rfl, -⟩ | ⟨rfl | rfl, -⟩⟩ := (checkedPoints_rejected_iff hm).1 hrejected
    all_goals exact .inr (.inl ⟨rfl, hon⟩)
  · cases i <;> simp [errCode] at honcurve haffenc ⊢

/-! ### Well-formed requests -/

/-- No event puts events into the queue or takes any out of it. -/
theorem applyEvent_events {e : Event} {s t : State} (h : applyEvent e s = .next t) : t.events = s.events := by
  obtain ⟨_, _, _, _, rfl⟩ | ⟨_, _, _, _, _, rfl⟩ | ⟨_, _, rfl⟩ | ⟨_, _, rfl⟩ | ⟨_, _, rfl⟩ | ⟨_, rfl⟩ :=
    applyEvent_cases h
  exacts [rfl, windowWrite_events .., commit_events .., rfl, rfl, rfl]

/-- A step uses up the first event of the queue. -/
theorem step_events {s t : State} (h : step s = .next t) : t.events = s.events.tail := by
  obtain ⟨e, rest, he, happly⟩ | ⟨he, _, rfl⟩ | ⟨he, _, rfl⟩ := step_cases h
  · rw [he, applyEvent_events happly]
    rfl
  · rw [commit_events, he]
    rfl
  · rw [he]
    rfl

/-- Only an ill-formed request at the head of the queue could stop a step (20_memory.md R64). -/
theorem step_next_of_wf {s : State} (h : ∀ e ∈ s.events, e.wf = true) : ∃ t, step s = .next t := by
  cases he : s.events with
  | cons e rest =>
    rw [step_of_events_cons he]
    exact applyEvent_wf (h e (he ▸ List.mem_cons_self)) _
  | nil =>
    cases hb : s.status.busy with
    | true => exact ⟨_, step_completionNext_eq_commit ⟨hb, .inr ⟨he, rfl⟩⟩⟩
    | false => exact ⟨s, (idleBlockKeepsItsState s hb).1 he⟩

/-- Settles O57: the first event of the queue is served, and the rest of the queue is left. -/
theorem wellFormedRequestsNeverStop : Obligations.WellFormedRequestsNeverStop := by
  intro s hwf
  have hall : ∀ e ∈ s.events, e.wf = true := List.all_eq_true.1 hwf
  obtain ⟨t, hstep⟩ := step_next_of_wf hall
  refine ⟨t, hstep, List.all_eq_true.2 fun e he => hall e (List.mem_of_mem_tail ?_)⟩
  rwa [← step_events hstep]

end Sys2Proof.Machine
end

section
/-! PROOFS. Family 70_reset_and_hazards.md: reset (R250, R251), the busy lock (R260), and that every command ends (R266). -/

namespace Sys2Proof.Machine

open Sys2Proof.Claims

/-! ### Reset -/

/-- With `rst` = 1 an edge is a reset and nothing else, whatever access and completion fall on it (R251). -/
theorem clockEdge_of_rst {p : Pins} (hrst : p.rst = true) (s : State) : clockEdge p s = .next (resetBlock s) := by
  have hevents : pinEvents p = [.reset] := if_pos hrst
  rw [clockEdge, hevents]
  rfl

/-- Settles O3: the edge is a reset of the reset state, DONE is 0 in it, and a read with `rst` = 1 shows 0. -/
theorem resetHoldsTheBlock : Obligations.ResetHoldsTheBlock := by
  intro p es hrst
  refine ⟨clockEdge_of_rst hrst _, ?irq, fun hreq hwe s => ?rdata⟩
  case irq => simp [pinsOut, irq, State.reset]
  case rdata => simp [pinsOut, hrst, hreq, hwe]

/-- A busy block becomes idle only by its completion or by a reset (R251, 10_state.md R38). -/
theorem step_ends_command {s t : State} (hb : s.status.busy = true) (hstep : step s = .next t)
    (hidle : t.status.busy = false) :
    (t.status.done = true ∧ ∃ rest, CompletionNext s rest) ∨
    ∃ rest, s.events = .reset :: rest ∧ t = { State.reset with events := rest } := by
  obtain ⟨rest, ⟨_, rfl⟩ | ⟨off, v, _, rfl⟩ | ⟨hnext, rfl⟩ | ⟨_, rfl⟩ | ⟨he, rfl⟩⟩ := step_next_cases hstep
  · exact absurd (hb.symm.trans hidle) (by decide)
  · have hkept := windowWrite_keeps_busy off v (s := { s with events := rest }) hb
    exact absurd (hkept.symm.trans hidle) (by decide)
  · exact .inl ⟨commit_status_done .., rest, hnext⟩
  · exact absurd (hb.symm.trans hidle) (by decide)
  · exact .inr ⟨rest, he, rfl⟩

/-- Settles O2: an edge with `rst` = 1 is a reset alone, and among the cases of a step only the completion and a reset clear BUSY. -/
theorem resetBeatsEverything : Obligations.ResetBeatsEverything :=
  ⟨fun _ s hrst => clockEdge_of_rst hrst s, fun _ _ he => step_of_events_cons he,
    fun _ _ hb hstep hidle => step_ends_command hb hstep hidle⟩

/-! ### The busy lock -/

/-- While busy, only a reset moves an operand register or CTRL (R260, 10_state.md R38). -/
theorem step_busy_operands_ctrl {s t : State} (hb : s.status.busy = true) (hreset : ∀ rest, s.events ≠ .reset :: rest)
    (hstep : step s = .next t) : t.operands = s.operands ∧ t.ctrl = s.ctrl := by
  obtain ⟨rest, ⟨_, rfl⟩ | ⟨off, v, _, rfl⟩ | ⟨_, rfl⟩ | ⟨_, rfl⟩ | ⟨he, _⟩⟩ := step_next_cases hstep
  · exact ⟨rfl, rfl⟩
  · obtain hkept | ⟨_, _, hidle, _⟩ := windowWrite_operands_ctrl off v { s with events := rest }
    · exact hkept
    · exact absurd (hb.symm.trans hidle) (by decide)
  · exact ⟨commit_operands .., commit_ctrl ..⟩
  · exact ⟨rfl, rfl⟩
  · exact absurd he (hreset rest)

/-- Settles O9: a step moves the operand registers and CTRL only by an idle write or a reset, and the write itself is one of the
five cases of `windowWrite`. -/
theorem busyLockDropsEveryWriteButStatus : Obligations.BusyLockDropsEveryWriteButStatus := by
  refine ⟨fun s t => step_busy_operands_ctrl, fun s off v rest hoff halign he => ?_⟩
  have hstep := step_write_aligned hoff halign he
  refine ⟨?status, ?dropped, ?issued, ?stored, ?ignored⟩
  case status =>
    rintro rfl
    rw [step_write_reg (r := .status) he, windowWrite_status, statusW1C_eq_ite]
  case dropped =>
    intro hne hb
    rw [hstep, windowWrite_busy hne v (s := { s with events := rest }) hb]
    rfl
  case issued =>
    rintro rfl hb
    exact ⟨workStart v s.operands, step_write_cmd_idle hb he⟩
  case stored =>
    rintro hb r hr rfl
    exact ⟨_, step_write_writable_idle hr hb he, readReg_storeReg_same hr v _,
      fun r' hne => readReg_storeReg_of_ne hne v _, by simp⟩
  case ignored =>
    intro hb hstatus hcmd hreg
    rw [hstep, windowWrite_ignored_idle hstatus hcmd hreg v (s := { s with events := rest }) hb]

/-! ### Every command ends -/

/-- With no event left the next step completes the command in flight (R266; log entry 3). -/
theorem step_idle_of_no_events {s t : State} (he : s.events = []) (hb : s.status.busy = true) (hstep : step s = .next t) :
    t.status.busy = false := by
  rw [step_completionNext_eq_commit ⟨hb, .inr ⟨he, rfl⟩⟩] at hstep
  cases hstep
  exact commit_status_busy ..

/-- Settles O58, by induction on the queue: every step uses up one event, and the step on the empty queue is the completion. -/
theorem everyCommandEnds : Obligations.EveryCommandEnds := by
  intro s hwf hb
  induction hq : s.events generalizing s with
  | nil =>
    obtain ⟨t, hstep, _⟩ := wellFormedRequestsNeverStop s hwf
    exact ⟨1, t, by simp, core_run_succ 0 hstep, step_idle_of_no_events hq hb hstep⟩
  | cons e rest ih =>
    obtain ⟨t, hstep, hwf'⟩ := wellFormedRequestsNeverStop s hwf
    have hrest : t.events = rest := by rw [step_events hstep, hq, List.tail_cons]
    cases hb' : t.status.busy with
    | false => exact ⟨1, t, by simp, core_run_succ 0 hstep, hb'⟩
    | true =>
      obtain ⟨n, u, hn, hrun, hidle⟩ := ih t hwf' hb' hrest
      exact ⟨n + 1, u, Nat.succ_le_succ hn, (core_run_succ n hstep).trans hrun, hidle⟩

end Sys2Proof.Machine
end
